-- ==== Sys2Proof/Word.lean ====
section
/-! DEFINITION. The word types of the core: bytes (V registers, DT, ST, memory), 16-bit words (I, PC, stack
entries, instructions), and the widths of the instruction fields (spec/30_encoding.md R70). -/

namespace Sys2Proof

/-- 8 bits: a V register, a timer, a memory byte, the immediate kk (R11). -/
abbrev Byte := BitVec 8

/-- 16 bits: I, PC, a stack entry, an instruction word (R11). -/
abbrev Word := BitVec 16

/-- A V register index: the 4-bit fields x and y (R70); every value names a register (R21). -/
abbrev RegIdx := BitVec 4

/-- The 12-bit field nnn (R70). -/
abbrev Addr12 := BitVec 12

/-- The 4-bit field n (R70). -/
abbrev Nibble := BitVec 4

end Sys2Proof
end

