-- ==== Sys2Proof/Syntax.lean ====
section
/-! DEFINITION. The instructions: one constructor per row of spec/opcode_table.json, the 34 effective instructions,
SYS nnn and the five reserved no-op spaces (spec/30_encoding.md R73, R78). -/

namespace Sys2Proof

/-- One instruction with its operand fields (R70, R72). -/
inductive Instr where
  /-- 00E0 `CLS` (R199). -/
  | cls
  /-- 00EE `RET` (R104). -/
  | ret
  /-- 1nnn `JP nnn` (R102). -/
  | jp (nnn : Addr12)
  /-- 2nnn `CALL nnn` (R103). -/
  | call (nnn : Addr12)
  /-- 3xkk `SE Vx, kk` (R121). -/
  | seImm (x : RegIdx) (kk : Byte)
  /-- 4xkk `SNE Vx, kk` (R122). -/
  | sneImm (x : RegIdx) (kk : Byte)
  /-- 5xy0 `SE Vx, Vy` (R123). -/
  | seReg (x y : RegIdx)
  /-- 6xkk `LD Vx, kk` (R142). -/
  | ldImm (x : RegIdx) (kk : Byte)
  /-- 7xkk `ADD Vx, kk` (R143). -/
  | addImm (x : RegIdx) (kk : Byte)
  /-- 8xy0 `LD Vx, Vy` (R144). -/
  | ldReg (x y : RegIdx)
  /-- 8xy1 `OR Vx, Vy` (R145). -/
  | orReg (x y : RegIdx)
  /-- 8xy2 `AND Vx, Vy` (R146). -/
  | andReg (x y : RegIdx)
  /-- 8xy3 `XOR Vx, Vy` (R147). -/
  | xorReg (x y : RegIdx)
  /-- 8xy4 `ADD Vx, Vy` (R148). -/
  | addReg (x y : RegIdx)
  /-- 8xy5 `SUB Vx, Vy` (R149). -/
  | subReg (x y : RegIdx)
  /-- 8xy6 `SHR Vx, Vy` (R150). -/
  | shrReg (x y : RegIdx)
  /-- 8xy7 `SUBN Vx, Vy` (R151). -/
  | subnReg (x y : RegIdx)
  /-- 8xyE `SHL Vx, Vy` (R152). -/
  | shlReg (x y : RegIdx)
  /-- 9xy0 `SNE Vx, Vy` (R124). -/
  | sneReg (x y : RegIdx)
  /-- Annn `LD I, nnn` (R172). -/
  | ldI (nnn : Addr12)
  /-- Bnnn `JP V0, nnn` (R105). -/
  | jpV0 (nnn : Addr12)
  /-- Cxkk `RND Vx, kk` (R153). -/
  | rnd (x : RegIdx) (kk : Byte)
  /-- Dxyn `DRW Vx, Vy, n` (R198). -/
  | drw (x y : RegIdx) (n : Nibble)
  /-- Ex9E `SKP Vx` (R125). -/
  | skp (x : RegIdx)
  /-- ExA1 `SKNP Vx` (R126). -/
  | sknp (x : RegIdx)
  /-- Fx07 `LD Vx, DT` (R210). -/
  | ldVxDt (x : RegIdx)
  /-- Fx0A `LD Vx, K` (R213). -/
  | ldVxK (x : RegIdx)
  /-- Fx15 `LD DT, Vx` (R211). -/
  | ldDtVx (x : RegIdx)
  /-- Fx18 `LD ST, Vx` (R212). -/
  | ldStVx (x : RegIdx)
  /-- Fx1E `ADD I, Vx` (R171). -/
  | addIVx (x : RegIdx)
  /-- Fx29 `LD F, Vx` (R173). -/
  | ldFVx (x : RegIdx)
  /-- Fx33 `LD B, Vx` (R174). -/
  | ldBVx (x : RegIdx)
  /-- Fx55 `LD [I], Vx` (R175). -/
  | ldMemVx (x : RegIdx)
  /-- Fx65 `LD Vx, [I]` (R176). -/
  | ldVxMem (x : RegIdx)
  /-- 0nnn other than 00E0 and 00EE, `SYS nnn` (R230). -/
  | sys (nnn : Addr12)
  /-- 5xyN, N not 0 (R231). -/
  | nop5 (x y : RegIdx) (n : Nibble)
  /-- 8xyN, N in 8..D or F (R232). -/
  | nop8 (x y : RegIdx) (n : Nibble)
  /-- 9xyN, N not 0 (R233). -/
  | nop9 (x y : RegIdx) (n : Nibble)
  /-- ExKK, KK not 9E or A1 (R234). -/
  | nopE (x : RegIdx) (kk : Byte)
  /-- FxKK, KK none of the nine of R235. -/
  | nopF (x : RegIdx) (kk : Byte)
  deriving DecidableEq, Repr

end Sys2Proof
end

