-- ==== Sys2Proof/WellFormed.lean ====
section
/-! DEFINITION. Well-formed instructions: the field widths are carried by the types, so the only checks are those of the
six no-op spaces, whose fields must not name an instruction with an effect (spec/30_encoding.md R74 to R77). -/

namespace Sys2Proof

/-- The sub-opcodes n of group 8 that select an ALU instruction (R76). -/
def aluSubOps : List Nibble := [0, 1, 2, 3, 4, 5, 6, 7, 0xE]

/-- The low bytes kk of group E that select an instruction (R77). -/
def keySubOps : List Byte := [0x9E, 0xA1]

/-- The low bytes kk of group F that select an instruction (R77). -/
def miscSubOps : List Byte := [0x07, 0x0A, 0x15, 0x18, 0x1E, 0x29, 0x33, 0x55, 0x65]

/-- The fields are ones some word of this row carries (R74 to R77). -/
def Instr.wellFormed : Instr → Bool
  | .sys nnn => nnn != 0x0E0 && nnn != 0x0EE
  | .nop5 _ _ n => n != 0
  | .nop8 _ _ n => !aluSubOps.contains n
  | .nop9 _ _ n => n != 0
  | .nopE _ kk => !keySubOps.contains kk
  | .nopF _ kk => !miscSubOps.contains kk
  | .cls => true
  | .ret => true
  | .jp _ => true
  | .call _ => true
  | .seImm _ _ => true
  | .sneImm _ _ => true
  | .seReg _ _ => true
  | .ldImm _ _ => true
  | .addImm _ _ => true
  | .ldReg _ _ => true
  | .orReg _ _ => true
  | .andReg _ _ => true
  | .xorReg _ _ => true
  | .addReg _ _ => true
  | .subReg _ _ => true
  | .shrReg _ _ => true
  | .subnReg _ _ => true
  | .shlReg _ _ => true
  | .sneReg _ _ => true
  | .ldI _ => true
  | .jpV0 _ => true
  | .rnd _ _ => true
  | .drw _ _ _ => true
  | .skp _ => true
  | .sknp _ => true
  | .ldVxDt _ => true
  | .ldVxK _ => true
  | .ldDtVx _ => true
  | .ldStVx _ => true
  | .addIVx _ => true
  | .ldFVx _ => true
  | .ldBVx _ => true
  | .ldMemVx _ => true
  | .ldVxMem _ => true

end Sys2Proof
end

