-- ==== Sys2Proof/Decode.lean ====
section
/-! DEFINITION. The decoder of spec/30_encoding.md R70 to R77, total on 16-bit words, its form over bytes, the table
word entry, and the encoder written from the same encodings. -/

namespace Sys2Proof

/-! ## Fields (R70) -/

/-- `group = instr >> 12`, bits 15..12. -/
def Word.group (w : Word) : Nibble := w.extractLsb' 12 4

/-- x, bits 11..8. -/
def Word.x (w : Word) : RegIdx := w.extractLsb' 8 4

/-- y, bits 7..4. -/
def Word.y (w : Word) : RegIdx := w.extractLsb' 4 4

/-- n, bits 3..0. -/
def Word.n (w : Word) : Nibble := w.extractLsb' 0 4

/-- kk, bits 7..0. -/
def Word.kk (w : Word) : Byte := w.extractLsb' 0 8

/-- nnn, bits 11..0. -/
def Word.nnn (w : Word) : Addr12 := w.extractLsb' 0 12

/-! ## Decoding (R73) -/

/-- Group 0: only the exact words 0x00E0 and 0x00EE are CLS and RET (R74). -/
def decode0 (nnn : Addr12) : Instr :=
  if nnn = 0x0E0 then .cls else if nnn = 0x0EE then .ret else .sys nnn

/-- Group 5 (R75). -/
def decode5 (x y : RegIdx) (n : Nibble) : Instr :=
  if n = 0 then .seReg x y else .nop5 x y n

/-- Group 8 selects on n (R76). -/
def decode8 (x y : RegIdx) (n : Nibble) : Instr :=
  if n = 0 then .ldReg x y
  else if n = 1 then .orReg x y
  else if n = 2 then .andReg x y
  else if n = 3 then .xorReg x y
  else if n = 4 then .addReg x y
  else if n = 5 then .subReg x y
  else if n = 6 then .shrReg x y
  else if n = 7 then .subnReg x y
  else if n = 0xE then .shlReg x y
  else .nop8 x y n

/-- Group 9 (R75). -/
def decode9 (x y : RegIdx) (n : Nibble) : Instr :=
  if n = 0 then .sneReg x y else .nop9 x y n

/-- Group E selects on the whole low byte (R77). -/
def decodeE (x : RegIdx) (kk : Byte) : Instr :=
  if kk = 0x9E then .skp x else if kk = 0xA1 then .sknp x else .nopE x kk

/-- Group F selects on the whole low byte (R77). -/
def decodeF (x : RegIdx) (kk : Byte) : Instr :=
  if kk = 0x07 then .ldVxDt x
  else if kk = 0x0A then .ldVxK x
  else if kk = 0x15 then .ldDtVx x
  else if kk = 0x18 then .ldStVx x
  else if kk = 0x1E then .addIVx x
  else if kk = 0x29 then .ldFVx x
  else if kk = 0x33 then .ldBVx x
  else if kk = 0x55 then .ldMemVx x
  else if kk = 0x65 then .ldVxMem x
  else .nopF x kk

/-- The decoder: every word is exactly one instruction (R73, R79). -/
def decode (w : Word) : Instr :=
  if w.group = 0x0 then decode0 w.nnn
  else if w.group = 0x1 then .jp w.nnn
  else if w.group = 0x2 then .call w.nnn
  else if w.group = 0x3 then .seImm w.x w.kk
  else if w.group = 0x4 then .sneImm w.x w.kk
  else if w.group = 0x5 then decode5 w.x w.y w.n
  else if w.group = 0x6 then .ldImm w.x w.kk
  else if w.group = 0x7 then .addImm w.x w.kk
  else if w.group = 0x8 then decode8 w.x w.y w.n
  else if w.group = 0x9 then decode9 w.x w.y w.n
  else if w.group = 0xA then .ldI w.nnn
  else if w.group = 0xB then .jpV0 w.nnn
  else if w.group = 0xC then .rnd w.x w.kk
  else if w.group = 0xD then .drw w.x w.y w.n
  else if w.group = 0xE then decodeE w.x w.kk
  else decodeF w.x w.kk

/-! ## Bytes (R51) -/

/-- The instruction word of two fetched bytes: the byte at the lower address is the high byte (R51). -/
def wordOfBytes (hi lo : Byte) : Word := hi ++ lo

/-- The byte of a word at the lower address, bits 15..8 (R51). -/
def Word.hi (w : Word) : Byte := w.extractLsb' 8 8

/-- The byte of a word at the higher address, bits 7..0 (R51). -/
def Word.lo (w : Word) : Byte := w.extractLsb' 0 8

/-- The one way bytes are no instruction: fewer than two of them (every word decodes, R79). -/
inductive DecodeError where
  /-- The bytes end before the second byte of the instruction. Raised by `decodeBytes` only. -/
  | truncated
  deriving DecidableEq, Repr

/-- Read one instruction from the front of a list of bytes; the rest of the list comes with it. -/
def decodeBytes : List Byte → Except DecodeError (Instr × List Byte)
  | hi :: lo :: rest => .ok (decode (wordOfBytes hi lo), rest)
  | [_] => .error .truncated
  | [] => .error .truncated

/-- The instruction this decoder reads from a word numbered as spec/opcode_table.json numbers it (bit 0 the least
significant); the bits at and above `nbits` are 0. The word is laid out as memory holds it: high byte first (R51). -/
def decodeTableWord (nbits w : Nat) : Option Instr :=
  let word : Word := BitVec.ofNat 16 (w % 2 ^ nbits)
  match decodeBytes [word.hi, word.lo] with
  | .ok (i, _) => some i
  | .error _ => none

/-! ## Encoding (R70, R72, R78) -/

/-- A word of shape NNN (R72). -/
def encNNN (g : Nibble) (nnn : Addr12) : Word := g ++ nnn

/-- A word of shape XKK, and of shape X with kk as sub-opcode (R72). -/
def encXKK (g : Nibble) (x : RegIdx) (kk : Byte) : Word := g ++ (x ++ kk)

/-- A word of shape XY or XYN (R72). -/
def encXYN (g : Nibble) (x y : RegIdx) (n : Nibble) : Word := g ++ (x ++ (y ++ n))

/-- The word of an instruction, for a well-formed instruction the one word that decodes to it. -/
def encode : Instr → Word
  | .cls => 0x00E0
  | .ret => 0x00EE
  | .sys nnn => encNNN 0x0 nnn
  | .jp nnn => encNNN 0x1 nnn
  | .call nnn => encNNN 0x2 nnn
  | .seImm x kk => encXKK 0x3 x kk
  | .sneImm x kk => encXKK 0x4 x kk
  | .seReg x y => encXYN 0x5 x y 0x0
  | .nop5 x y n => encXYN 0x5 x y n
  | .ldImm x kk => encXKK 0x6 x kk
  | .addImm x kk => encXKK 0x7 x kk
  | .ldReg x y => encXYN 0x8 x y 0x0
  | .orReg x y => encXYN 0x8 x y 0x1
  | .andReg x y => encXYN 0x8 x y 0x2
  | .xorReg x y => encXYN 0x8 x y 0x3
  | .addReg x y => encXYN 0x8 x y 0x4
  | .subReg x y => encXYN 0x8 x y 0x5
  | .shrReg x y => encXYN 0x8 x y 0x6
  | .subnReg x y => encXYN 0x8 x y 0x7
  | .shlReg x y => encXYN 0x8 x y 0xE
  | .nop8 x y n => encXYN 0x8 x y n
  | .sneReg x y => encXYN 0x9 x y 0x0
  | .nop9 x y n => encXYN 0x9 x y n
  | .ldI nnn => encNNN 0xA nnn
  | .jpV0 nnn => encNNN 0xB nnn
  | .rnd x kk => encXKK 0xC x kk
  | .drw x y n => encXYN 0xD x y n
  | .skp x => encXKK 0xE x 0x9E
  | .sknp x => encXKK 0xE x 0xA1
  | .nopE x kk => encXKK 0xE x kk
  | .ldVxDt x => encXKK 0xF x 0x07
  | .ldVxK x => encXKK 0xF x 0x0A
  | .ldDtVx x => encXKK 0xF x 0x15
  | .ldStVx x => encXKK 0xF x 0x18
  | .addIVx x => encXKK 0xF x 0x1E
  | .ldFVx x => encXKK 0xF x 0x29
  | .ldBVx x => encXKK 0xF x 0x33
  | .ldMemVx x => encXKK 0xF x 0x55
  | .ldVxMem x => encXKK 0xF x 0x65
  | .nopF x kk => encXKK 0xF x kk

end Sys2Proof
end

