-- ==== Sys2Proof/Config.lean ====
section
/-! DEFINITION. What the spec fixes for the machine (spec/00_scope.md R9, R10), the parameters a session
chooses, and the one free value: the random source. -/

namespace Sys2Proof.Config

/-- MEM_SIZE: addresses 0x000 to 0xFFF (R9). -/
def memSize : Nat := 0x1000

/-- FONT_LEN: 16 glyphs of 5 bytes at 0x000 (R9). -/
def fontLen : Nat := 0x50

/-- PROG_BASE: the program load address and reset PC (R9). -/
def progBase : Nat := 0x200

/-- The longest program load_program accepts: MEM_SIZE - PROG_BASE (R242). -/
def maxProgram : Nat := 0xE00

/-- SCREEN_BASE (R9). -/
def screenBase : Nat := 0xF00

/-- SCREEN_LEN: 64 x 32 pixels at one bit each (R9). -/
def screenLen : Nat := 0x100

/-- STACK_DEPTH, fixed at 20 by decision D1 (R10, R28). DESIGN CHOICE of the spec (log
entry 10). -/
abbrev stackDepth : Nat := 20

/-- The parameters of the session that reset() installs (R10): both are arguments of the model's reset() operation. -/
structure Params where
  /-- TIMER_DIVIDER_RESET, OPEN in 0..9 (D12). -/
  timerDividerReset : Fin 10
  /-- FONT, 80 bytes (D15). -/
  font : Vector Byte 80
  deriving DecidableEq, Repr

/-- The byte the host's random source answers to the n-th draw (R153, R261): a FREE VALUE. It has no body, so nothing
can be proved of it and a claim about Cxkk holds for every source (D20). Log entry 5. -/
opaque randomByte : Nat → Byte

end Sys2Proof.Config
end

