-- ==== Sys2Proof/Machine/Defaults.lean ====
section
/-! DEFINITION. The values State.reset takes where the spec leaves a parameter of the session open: TIMER_DIVIDER_RESET,
SCHIP_SHIFT and FONT (spec/92_eei_decisions.md D12, D14, D15), each with a log entry. -/

namespace Sys2Proof.Machine

/-- DESIGN CHOICE (unsafe, log entry 1): the spec leaves TIMER_DIVIDER_RESET open in 0..9; State.reset takes the 9 of the
conventions of spec/95_test_vectors.md. -/
def defaultTimerDividerReset : Fin 10 := 9

/-- DESIGN CHOICE (unsafe, log entry 2): the spec leaves SCHIP_SHIFT open; State.reset takes standard mode, as the
conventions of spec/95_test_vectors.md do. -/
def defaultSchip : Bool := false

/-- DESIGN CHOICE (unsafe, log entry 4): FONT is a parameter; this is the default D15 lists, glyphs 0 to F, 5 bytes
each. -/
def defaultFontBytes : List Byte :=
  [0xF0, 0x90, 0x90, 0x90, 0xF0] ++ [0x20, 0x60, 0x20, 0x20, 0x70] ++
  [0xF0, 0x10, 0xF0, 0x80, 0xF0] ++ [0xF0, 0x10, 0xF0, 0x10, 0xF0] ++
  [0x90, 0x90, 0xF0, 0x10, 0x10] ++ [0xF0, 0x80, 0xF0, 0x10, 0xF0] ++
  [0xF0, 0x80, 0xF0, 0x90, 0xF0] ++ [0xF0, 0x10, 0x20, 0x40, 0x40] ++
  [0xF0, 0x90, 0xF0, 0x90, 0xF0] ++ [0xF0, 0x90, 0xF0, 0x10, 0xF0] ++
  [0xF0, 0x90, 0xF0, 0x90, 0x90] ++ [0xE0, 0x90, 0xE0, 0x90, 0xE0] ++
  [0xF0, 0x80, 0x80, 0x80, 0xF0] ++ [0xE0, 0x90, 0x90, 0x90, 0xE0] ++
  [0xF0, 0x80, 0xF0, 0x80, 0xF0] ++ [0xF0, 0x80, 0xF0, 0x80, 0x80]

/-- The default parameters as one value. -/
def defaultParams : Config.Params where
  timerDividerReset := defaultTimerDividerReset
  font := Vector.ofFn fun k => defaultFontBytes.getD k.val 0

/-- What an address no entry of memory lists reads as: its contents after reset with the default FONT, the font in
0x000..0x04F and 0 everywhere else (R35). -/
def unlisted (a : Nat) : Byte := defaultFontBytes.getD a 0

end Sys2Proof.Machine
end

