-- ==== Sys2Proof/Machine/State.lean ====
section
/-! DEFINITION. The Machine State of spec/10_state.md R20 as plain data, the fault kinds of spec/60_exceptions.md R241,
the refusals, the tick's result (R32, R100) and the state after reset (R35). -/

namespace Sys2Proof.Machine

/-- The fault kinds a tick can raise (R241). The meaning that raises one ends in a NEXT state that differs only in the
fault mark (R244); from that state on, and only there, `step` answers `.fault` with the same kind. -/
inductive Fault where
  /-- The fetch of any tick with PC > 0xFFE (R51). Safe: the source has no guard and the spec's machine stops (D4). -/
  | fetchOutOfRange
  /-- Fx33, Fx55, Fx65 or Dxyn when an address it would access is above 0xFFF (R55). Safe: the spec's machine stops
  (D3). -/
  | memoryOutOfRange
  /-- 2nnn with the stack full (R103). Safe: the spec's machine stops (D1). -/
  | stackOverflow
  /-- 00EE with the stack empty (R104). Safe: the spec's machine stops (D1). -/
  | stackUnderflow
  /-- Fx1E when the exact sum exceeds 0xFFFF (R171). Safe: the spec's machine stops (D5). -/
  | indexOverflow
  deriving DecidableEq, Repr

/-- The refusals. No meaning of this model refuses. -/
inductive Refusal where
  /-- An instruction without a meaning yet. Raised by no arm of exec. Safe: nothing is claimed of it. -/
  | notModelled (mnemonic : String)
  deriving DecidableEq, Repr

/-- What a tick returns to the host (R100, R32, C10); it is no part of the Machine State. -/
inductive TickResult where
  | advanced
  | waitingForKey
  | faulted (k : Fault)
  deriving DecidableEq, Repr

/-- Memory in its canonical form: the bytes that differ from the reset contents, addresses strictly rising (the form is
`Memory.wf` of Machine/Ops.lean). -/
abbrev Memory := List Host.Cell

/-- The Machine State (R20) with the fault mark (R34) and the model's count of random draws (log entry 5). -/
structure State where
  /-- V0 to VF (R21). -/
  v : Vector Byte 16
  /-- The index register I (R27). -/
  i : Word
  /-- The program counter (R24). -/
  pc : Word
  /-- SP: how many stack entries are in use, 0..STACK_DEPTH (R26, R28, log entry 16). -/
  sp : Fin (Config.stackDepth + 1)
  /-- The return stack (R28). -/
  stack : Vector Word Config.stackDepth
  /-- The delay timer (R26). -/
  dt : Byte
  /-- The sound timer (R26). -/
  st : Byte
  /-- TC, the timer_counter, 0..9 (R26, R31, log entry 16). -/
  tc : Fin 10
  /-- KEYS, true for a key that is down (R29); the host's input, held between ticks (log entry 9). -/
  keys : Vector Bool 16
  /-- SCHIP, constant for a session (R26, D14). -/
  schip : Bool
  /-- The 4096 bytes of memory (R30). -/
  mem : Memory
  /-- FAULT, the fault mark (R34). -/
  fault : Option Fault
  /-- The model's own: how many bytes the random source has given (log entry 5). -/
  draws : Nat
  deriving DecidableEq, Repr

/-- The machine right after reset (R35), with the default parameters, standard mode and no key down (log entries 1 to
5 and 14). -/
def State.reset : State where
  v := Vector.replicate 16 0
  i := 0
  pc := 0x200
  sp := 0
  stack := Vector.replicate Config.stackDepth 0
  dt := 0
  st := 0
  tc := defaultTimerDividerReset
  keys := Vector.replicate 16 false
  schip := defaultSchip
  mem := []
  fault := none
  draws := 0

end Sys2Proof.Machine
end

