-- ==== Sys2Proof/Machine/Ops.lean ====
section
/-! DEFINITION. The named operations over memory, registers, the stack and PC, the end of a tick, and raising a fault:
the one place each of them is written (spec/00_scope.md R13 to R15, 20_memory.md, 40_control_flow.md R100). -/

namespace Sys2Proof.Machine

/-! ## Memory (R14, R50) -/

/-- `MemRead(addr, 1)` (R14): the listed byte, else the reset contents. -/
def Memory.read : Memory → Nat → Byte
  | [], a => unlisted a
  | c :: m, a => if c.1 = a then c.2 else Memory.read m a

/-- Put an entry at its place by address. -/
def Memory.insert : Memory → Nat → Byte → Memory
  | [], a, b => [(a, b)]
  | c :: m, a, b => if a < c.1 then (a, b) :: c :: m else c :: Memory.insert m a b

/-- Drop the entry of an address. -/
def Memory.erase (m : Memory) (a : Nat) : Memory := m.filter fun c => c.1 != a

/-- `MemWrite(addr, 1, v)` (R14), keeping the canonical form. An address above 0xFFF is no address and nothing is stored
there; no instruction reaches that case (R55, log entry 11). -/
def Memory.write (m : Memory) (a : Nat) (b : Byte) : Memory :=
  if a < Config.memSize then
    if b = unlisted a then Memory.erase m a else Memory.insert (Memory.erase m a) a b
  else m

/-- Store bytes at ascending addresses from `a` (R52). -/
def Memory.writeBytes : Memory → Nat → List Byte → Memory
  | m, _, [] => m
  | m, a, b :: bs => Memory.writeBytes (Memory.write m a b) (a + 1) bs

/-- The canonical form: addresses strictly rising, all inside memory, no entry equal to the reset contents. -/
def Memory.wf (m : Memory) : Bool :=
  decide (m.Pairwise fun c d => c.1 < d.1) && m.all fun c => decide (c.1 < Config.memSize) && c.2 != unlisted c.1

/-! ## Registers (R13, R21) -/

/-- `V[x]`. -/
def State.getV (s : State) (x : RegIdx) : Byte := s.v[x.toNat]'x.isLt

/-- `V[x] <- b`. -/
def State.setV (s : State) (x : RegIdx) (b : Byte) : State := { s with v := s.v.set x.toNat b x.isLt }

/-- VF, register 15 (R22). -/
def vf : RegIdx := 0xF

/-- `I <- a`. -/
def State.setI (s : State) (a : Word) : State := { s with i := a }

/-- `PC <- a`. -/
def State.setPc (s : State) (a : Word) : State := { s with pc := a }

/-- `DT <- b`. -/
def State.setDt (s : State) (b : Byte) : State := { s with dt := b }

/-- `ST <- b`. -/
def State.setSt (s : State) (b : Byte) : State := { s with st := b }

/-- Memory replaced. -/
def State.setMem (s : State) (m : Memory) : State := { s with mem := m }

/-- Memory byte at `a`. -/
def State.readMem (s : State) (a : Nat) : Byte := Memory.read s.mem a

/-- One draw of the random source: its byte is the free value, and the count goes on so that the next draw is a fresh one
(R153, R261, log entry 5). -/
def State.drawRandom (s : State) : Byte × State := (Config.randomByte s.draws, { s with draws := s.draws + 1 })

/-! ## The stack (R28) -/

/-- Write `stack[SP]`, then count SP up; none when the stack is full (R103). -/
def State.push (s : State) (a : Word) : Option State :=
  if h : s.sp.val < Config.stackDepth then
    some { s with stack := s.stack.set s.sp.val a h, sp := ⟨s.sp.val + 1, Nat.succ_lt_succ h⟩ }
  else none

/-- Count SP down, then read `stack[SP]`, which keeps its value; none when the stack is empty (R104). -/
def State.pop (s : State) : Option (Word × State) :=
  if h : 0 < s.sp.val then
    have hlt : s.sp.val - 1 < Config.stackDepth := by have := s.sp.isLt; omega
    some (s.stack[s.sp.val - 1], { s with sp := ⟨s.sp.val - 1, by omega⟩ })
  else none

/-! ## The end of a tick (R100, R216) -/

/-- `PC <- (PC + 2) mod 2^16` (R100, D6). -/
def State.advancePc (s : State) : State := { s with pc := s.pc + 2 }

/-- A timer counts down and stays at 0 (R216). -/
def countDown (b : Byte) : Byte := if b = 0 then 0 else b - 1

/-- The timer-divider step (R216). -/
def State.timerDividerStep (s : State) : State :=
  if s.tc = 0 then { s with tc := 9, dt := countDown s.dt, st := countDown s.st }
  else { s with tc := ⟨s.tc.val - 1, by have := s.tc.isLt; omega⟩ }

/-- Step 4 of the tick: the PC advance, then the timer-divider step (R100). -/
def State.endOfTick (s : State) : State := s.advancePc.timerDividerStep

/-! ## Taking a fault (R15, R244) -/

/-- Fault entry: the Machine State stays as it was before the tick, and the fault mark is set (R244). Nothing else is
saved, no mode changes, control goes nowhere, and only the host's reset() ends it (R245). That it is a next state is the
DESIGN CHOICE of log entry 6 (safe). -/
def State.raiseFault (s : State) (k : Fault) : State := { s with fault := some k }

/-- How the execute part of an instruction ends (R15): its effect done, `wait`, or `raise Fault(k)`. -/
inductive Executed where
  | done (s : State)
  | wait
  | raise (k : Fault)
  deriving DecidableEq, Repr

/-- The rest of the tick after the execute part, from the state `s0` the tick began in (R100): an effect is followed by
the end of tick, a wait leaves everything as it was (R214), a raised fault enters the fault state (R244). -/
def finish (s0 : State) : Executed → Host.Outcome State Fault Refusal
  | .done s => .next s.endOfTick
  | .wait => .next s0
  | .raise k => .next (s0.raiseFault k)

/-! ## Fetch (R51) -/

/-- Fetch the word at PC, high byte first, or the fault of a fetch whose second byte would be above 0xFFF (R51). No
alignment is asked for (R53). -/
def fetch (s : State) : Except Fault Word :=
  if s.pc.toNat > 0xFFE then .error .fetchOutOfRange
  else .ok (wordOfBytes (s.readMem s.pc.toNat) (s.readMem (s.pc.toNat + 1)))

end Sys2Proof.Machine
end

