-- ==== Sys2Proof/Machine/Flags.lean ====
section
/-! DEFINITION. The values VF receives (spec/10_state.md R25) and the order of the two writes: the result first, the flag
after it (R22, R140). -/

namespace Sys2Proof.Machine

/-- A flag as the byte VF holds: 1 or 0. -/
def flagByte (b : Bool) : Byte := if b then 1 else 0

/-- Carry of 8xy4: the exact sum exceeds 255 (R148). -/
def carry (a b : Byte) : Byte := flagByte (decide (a.toNat + b.toNat > 255))

/-- NOT borrow of a - b: 0 if a < b, else 1 (R149, R151). -/
def notBorrow (a b : Byte) : Byte := flagByte (!decide (a.toNat < b.toNat))

/-- The bit a right shift moves out (R150). -/
def shrOut (o : Byte) : Byte := o &&& 1

/-- The bit a left shift moves out (R152). -/
def shlOut (o : Byte) : Byte := o >>> 7

/-- Write the result to Vx, then the flag to VF: when x is F the flag wins (R22, R140). -/
def State.setResultFlag (s : State) (x : RegIdx) (r f : Byte) : State := (s.setV x r).setV vf f

end Sys2Proof.Machine
end

