-- ==== Sys2Proof/Machine/Operands.lean ====
section
/-! DEFINITION. The operand forms (spec/30_encoding.md R71): nnn as an address, the effective addresses I + k, the
shift operand, the key lookups, and the lists of registers V0..Vx. -/

namespace Sys2Proof.Machine

/-- nnn as a 16-bit value by zero extension (R71). -/
def zext16 (nnn : Addr12) : Word := nnn.zeroExtend 16

/-- The PC value a jump to `a` leaves during execute: 2 below it, modulo 2^16, for the common advance (R102, D6). -/
def jumpPc (a : Word) : Word := a - 2

/-- The effective address of byte k of an access: I + k, exact (R170). -/
def State.dataAddr (s : State) (k : Nat) : Nat := s.i.toNat + k

/-- Every address up to `a` is inside memory (R55). -/
abbrev InMemory (a : Nat) : Prop := a ≤ 0xFFF

/-- The operand of 8xy6 and 8xyE: Vx in schip mode, Vy in standard mode (R150, R152). -/
def State.shiftOperand (s : State) (x y : RegIdx) : Byte := if s.schip then s.getV x else s.getV y

/-- KEYS[k]. -/
def State.keyDown (s : State) (k : RegIdx) : Bool := s.keys[k.toNat]'k.isLt

/-- `is_key_pressed(v)`: false for every value above 0xF (R219, C3). -/
def State.isKeyPressed (s : State) (v : Byte) : Bool := decide (v.toNat ≤ 0xF) && s.keyDown (v.truncate 4)

/-- `get_key_pressed`: the lowest key that is down, or none (R220). -/
def State.getKeyPressed (s : State) : Option RegIdx :=
  ((List.range 16).map (BitVec.ofNat 4)).find? fun k => s.keyDown k

/-- The registers V0 to Vx in ascending order (R175, R176). -/
def regsUpTo (x : RegIdx) : List RegIdx := (List.range (x.toNat + 1)).map (BitVec.ofNat 4)

end Sys2Proof.Machine
end

