-- ==== Sys2Proof/Machine/Alu.lean ====
section
/-! DEFINITION. Register loads, arithmetic and logic, and the random byte (spec/42_alu.md). Every operand is read before
the first write (R140). -/

namespace Sys2Proof.Machine

/-- 6xkk (R142). -/
def execLdImm (x : RegIdx) (kk : Byte) (s : State) : Host.Outcome State Fault Refusal :=
  finish s (.done (s.setV x kk))

/-- 7xkk (R143): wrapping, no flag. -/
def execAddImm (x : RegIdx) (kk : Byte) (s : State) : Host.Outcome State Fault Refusal :=
  finish s (.done (s.setV x (s.getV x + kk)))

/-- 8xy0 (R144). -/
def execLdReg (x y : RegIdx) (s : State) : Host.Outcome State Fault Refusal :=
  finish s (.done (s.setV x (s.getV y)))

/-- 8xy1 (R145). -/
def execOrReg (x y : RegIdx) (s : State) : Host.Outcome State Fault Refusal :=
  finish s (.done (s.setV x (s.getV x ||| s.getV y)))

/-- 8xy2 (R146). -/
def execAndReg (x y : RegIdx) (s : State) : Host.Outcome State Fault Refusal :=
  finish s (.done (s.setV x (s.getV x &&& s.getV y)))

/-- 8xy3 (R147). -/
def execXorReg (x y : RegIdx) (s : State) : Host.Outcome State Fault Refusal :=
  finish s (.done (s.setV x (s.getV x ^^^ s.getV y)))

/-- 8xy4 (R148). -/
def execAddReg (x y : RegIdx) (s : State) : Host.Outcome State Fault Refusal :=
  let a := s.getV x
  let b := s.getV y
  finish s (.done (s.setResultFlag x (a + b) (carry a b)))

/-- 8xy5 (R149): Vx - Vy. -/
def execSubReg (x y : RegIdx) (s : State) : Host.Outcome State Fault Refusal :=
  let a := s.getV x
  let b := s.getV y
  finish s (.done (s.setResultFlag x (a - b) (notBorrow a b)))

/-- 8xy6 (R150). -/
def execShrReg (x y : RegIdx) (s : State) : Host.Outcome State Fault Refusal :=
  let o := s.shiftOperand x y
  finish s (.done (s.setResultFlag x (o >>> 1) (shrOut o)))

/-- 8xy7 (R151): Vy - Vx, borrow when Vy < Vx (D9). -/
def execSubnReg (x y : RegIdx) (s : State) : Host.Outcome State Fault Refusal :=
  let a := s.getV x
  let b := s.getV y
  finish s (.done (s.setResultFlag x (b - a) (notBorrow b a)))

/-- 8xyE (R152). -/
def execShlReg (x y : RegIdx) (s : State) : Host.Outcome State Fault Refusal :=
  let o := s.shiftOperand x y
  finish s (.done (s.setResultFlag x (o <<< 1) (shlOut o)))

/-- Cxkk (R153): one draw of the random source, masked. -/
def execRnd (x : RegIdx) (kk : Byte) (s : State) : Host.Outcome State Fault Refusal :=
  let (r, s') := s.drawRandom
  finish s (.done (s'.setV x (r &&& kk)))

end Sys2Proof.Machine
end

