-- ==== Sys2Proof/Machine/ControlFlow.lean ====
section
/-! DEFINITION. The control transfers RET, JP, CALL and JP V0 (spec/40_control_flow.md). -/

namespace Sys2Proof.Machine

/-- 00EE (R104): pop the CALL's address into PC; the common advance goes past it. -/
def execRet (s : State) : Host.Outcome State Fault Refusal :=
  finish s <| match s.pop with
    | some (a, s') => .done (s'.setPc a)
    | none => .raise .stackUnderflow

/-- 1nnn (R102). -/
def execJp (nnn : Addr12) (s : State) : Host.Outcome State Fault Refusal :=
  finish s (.done (s.setPc (jumpPc (zext16 nnn))))

/-- 2nnn (R103): push the address of this CALL, then jump. -/
def execCall (nnn : Addr12) (s : State) : Host.Outcome State Fault Refusal :=
  finish s <| match s.push s.pc with
    | some s' => .done (s'.setPc (jumpPc (zext16 nnn)))
    | none => .raise .stackOverflow

/-- Bnnn (R105): the offset register is always V0. -/
def execJpV0 (nnn : Addr12) (s : State) : Host.Outcome State Fault Refusal :=
  finish s (.done (s.setPc (jumpPc (zext16 nnn + (s.getV 0).zeroExtend 16))))

end Sys2Proof.Machine
end

