-- ==== Sys2Proof/Machine/Display.lean ====
section
/-! DEFINITION. The display bitmap, the XOR-sprite blitter and its two instructions (spec/44_display.md). -/

namespace Sys2Proof.Machine

/-- The byte that holds pixel (px, py) (R190). -/
def pixelAddr (px py : Nat) : Nat := Config.screenBase + py * 8 + px / 8

/-- Pixel (px, py) is on; the leftmost pixel of a byte is its bit 7 (R190). -/
def State.pixelOn (s : State) (px py : Nat) : Bool := (s.readMem (pixelAddr px py)).getLsbD (7 - px % 8)

/-- Where draw works once its origin is wrapped (R191 step 1): the display column byte and the bit shift of x, and y. -/
structure Origin where
  col : Nat
  shift : Nat
  y : Nat
  deriving DecidableEq, Repr

/-- Wrap the origin to the screen: x mod 64, y mod 32 (R191 step 1). -/
def wrapOrigin (x y : Byte) : Origin where
  col := x.toNat % 64 / 8
  shift := x.toNat % 64 % 8
  y := y.toNat % 32

/-- The height clipped at the bottom edge (R191 step 2). -/
def clipHeight (y height : Nat) : Nat := min height (32 - y)

/-- XOR a pattern into one display byte, and note whether it met a lit pixel (R191, R195). -/
def xorByte (acc : Memory × Bool) (t : Nat) (p : Byte) : Memory × Bool :=
  let old := Memory.read acc.1 t
  (Memory.write acc.1 t (old ^^^ p), acc.2 || (old &&& p) != 0)

/-- Row i of a draw (R191 step 3): the sprite byte is read from memory as the earlier rows left it (R194); the bits past
column 63 are discarded (R192). -/
def drawRow (addr : Nat) (o : Origin) (acc : Memory × Bool) (i : Nat) : Memory × Bool :=
  let sb := Memory.read acc.1 (addr + i)
  let t := Config.screenBase + o.col + (o.y + i) * 8
  let acc := xorByte acc t (sb >>> o.shift)
  if o.shift ≠ 0 ∧ o.col < 7 then xorByte acc (t + 1) (sb <<< (8 - o.shift)) else acc

/-- Rows 0 to h - 1 in order (R191, R194). -/
def drawRows (addr : Nat) (o : Origin) (h : Nat) (m : Memory) : Memory × Bool :=
  (List.range h).foldl (drawRow addr o) (m, false)

/-- `draw(addr, x, y, height)` (R191): the range check of the sprite bytes comes before VF or any byte is written; VF is
the collision (R195), 0 for height 0 (R196). -/
def draw (addr : Nat) (x y : Byte) (height : Nat) (s : State) : Executed :=
  let o := wrapOrigin x y
  let h := clipHeight o.y height
  if h > 0 ∧ ¬ InMemory (addr + h - 1) then .raise .memoryOutOfRange
  else
    let r := drawRows addr o h s.mem
    .done ((s.setMem r.1).setV vf (flagByte r.2))

/-- Dxyn (R198): the coordinates are read before draw resets VF. -/
def execDrw (x y : RegIdx) (n : Nibble) (s : State) : Host.Outcome State Fault Refusal :=
  finish s (draw (s.dataAddr 0) (s.getV x &&& 0x3F) (s.getV y &&& 0x1F) n.toNat s)

/-- The bitmap with every pixel off. -/
def blankScreen : List Byte := List.replicate Config.screenLen 0

/-- 00E0 (R199): every byte of the bitmap becomes 0. -/
def execCls (s : State) : Host.Outcome State Fault Refusal :=
  finish s (.done (s.setMem (Memory.writeBytes s.mem Config.screenBase blankScreen)))

end Sys2Proof.Machine
end

