-- ==== Sys2Proof/Machine/IndexMemory.lean ====
section
/-! DEFINITION. The index register and the memory transfers (spec/43_index_memory.md). -/

namespace Sys2Proof.Machine

/-- Annn (R172). -/
def execLdI (nnn : Addr12) (s : State) : Host.Outcome State Fault Refusal :=
  finish s (.done (s.setI (zext16 nnn)))

/-- Fx1E (R171): no mask; a sum that leaves 16 bits faults. -/
def execAddIVx (x : RegIdx) (s : State) : Host.Outcome State Fault Refusal :=
  let sum := s.i.toNat + (s.getV x).toNat
  finish s (if sum > 0xFFFF then .raise .indexOverflow else .done (s.setI (BitVec.ofNat 16 sum)))

/-- Fx29 (R173): Vx times 5, no mask. -/
def execLdFVx (x : RegIdx) (s : State) : Host.Outcome State Fault Refusal :=
  finish s (.done (s.setI ((s.getV x).zeroExtend 16 * 5)))

/-- The three decimal digits of a byte, hundreds first (R174). -/
def bcdDigits (b : Byte) : List Byte := [b / 100, b / 10 % 10, b % 10]

/-- Fx33 (R174). -/
def execLdBVx (x : RegIdx) (s : State) : Host.Outcome State Fault Refusal :=
  finish s (if InMemory (s.dataAddr 2) then
      .done (s.setMem (Memory.writeBytes s.mem (s.dataAddr 0) (bcdDigits (s.getV x))))
    else .raise .memoryOutOfRange)

/-- I after a block transfer of V0..Vx (R170). -/
def State.indexPast (s : State) (x : RegIdx) : Word := s.i + x.zeroExtend 16 + 1

/-- Fx55 (R175). -/
def execLdMemVx (x : RegIdx) (s : State) : Host.Outcome State Fault Refusal :=
  finish s (if InMemory (s.dataAddr x.toNat) then
      .done ((s.setMem (Memory.writeBytes s.mem (s.dataAddr 0) ((regsUpTo x).map s.getV))).setI (s.indexPast x))
    else .raise .memoryOutOfRange)

/-- `for k in ks: V[k] <- MemRead(I + k, 1)` (R176); memory and I stay as they are in `s0`. -/
def loadRegs (s0 : State) (ks : List RegIdx) : State :=
  ks.foldl (fun s k => s.setV k (s0.readMem (s0.dataAddr k.toNat))) s0

/-- Fx65 (R176). -/
def execLdVxMem (x : RegIdx) (s : State) : Host.Outcome State Fault Refusal :=
  finish s (if InMemory (s.dataAddr x.toNat) then .done ((loadRegs s (regsUpTo x)).setI (s.indexPast x))
    else .raise .memoryOutOfRange)

end Sys2Proof.Machine
end

