-- ==== Sys2Proof/Machine/NoOps.lean ====
section
/-! DEFINITION. The six no-op spaces (spec/46_reserved_noops.md): the execute part does nothing, the end of tick runs. -/

namespace Sys2Proof.Machine

/-- An execute part that does nothing (R79). -/
def noOp (s : State) : Host.Outcome State Fault Refusal := finish s (.done s)

/-- 0nnn other than 00E0 and 00EE (R230). -/
def execSys (_ : Addr12) (s : State) : Host.Outcome State Fault Refusal := noOp s

/-- 5xyN, N not 0 (R231). -/
def execNop5 (_ _ : RegIdx) (_ : Nibble) (s : State) : Host.Outcome State Fault Refusal := noOp s

/-- 8xyN, N in 8..D or F (R232). -/
def execNop8 (_ _ : RegIdx) (_ : Nibble) (s : State) : Host.Outcome State Fault Refusal := noOp s

/-- 9xyN, N not 0 (R233). -/
def execNop9 (_ _ : RegIdx) (_ : Nibble) (s : State) : Host.Outcome State Fault Refusal := noOp s

/-- ExKK, KK not 9E or A1 (R234): the keys are not read. -/
def execNopE (_ : RegIdx) (_ : Byte) (s : State) : Host.Outcome State Fault Refusal := noOp s

/-- FxKK, KK none of the nine (R235). -/
def execNopF (_ : RegIdx) (_ : Byte) (s : State) : Host.Outcome State Fault Refusal := noOp s

end Sys2Proof.Machine
end

