-- ==== Sys2Proof/Machine/Skips.lean ====
section
/-! DEFINITION. The six conditional skips (spec/41_skips.md). -/

namespace Sys2Proof.Machine

/-- `if c: skip`, where skip adds 2 to PC during execute (R120, log entry 17). -/
def skipIf (c : Bool) (s : State) : Executed := .done (if c then s.advancePc else s)

/-- 3xkk (R121). -/
def execSeImm (x : RegIdx) (kk : Byte) (s : State) : Host.Outcome State Fault Refusal :=
  finish s (skipIf (s.getV x == kk) s)

/-- 4xkk (R122). -/
def execSneImm (x : RegIdx) (kk : Byte) (s : State) : Host.Outcome State Fault Refusal :=
  finish s (skipIf (s.getV x != kk) s)

/-- 5xy0 (R123). -/
def execSeReg (x y : RegIdx) (s : State) : Host.Outcome State Fault Refusal :=
  finish s (skipIf (s.getV x == s.getV y) s)

/-- 9xy0 (R124). -/
def execSneReg (x y : RegIdx) (s : State) : Host.Outcome State Fault Refusal :=
  finish s (skipIf (s.getV x != s.getV y) s)

/-- Ex9E (R125): the key index is the value of Vx. -/
def execSkp (x : RegIdx) (s : State) : Host.Outcome State Fault Refusal :=
  finish s (skipIf (s.isKeyPressed (s.getV x)) s)

/-- ExA1 (R126). -/
def execSknp (x : RegIdx) (s : State) : Host.Outcome State Fault Refusal :=
  finish s (skipIf (!s.isKeyPressed (s.getV x)) s)

end Sys2Proof.Machine
end

