-- ==== Sys2Proof/Machine/TimersKeys.lean ====
section
/-! DEFINITION. The timer instructions and the wait for a key (spec/45_timers_keys.md). -/

namespace Sys2Proof.Machine

/-- Fx07 (R210): DT as it is before this tick's timer step. -/
def execLdVxDt (x : RegIdx) (s : State) : Host.Outcome State Fault Refusal :=
  finish s (.done (s.setV x s.dt))

/-- Fx0A (R213): with no key down the tick waits, and nothing changes (R214). -/
def execLdVxK (x : RegIdx) (s : State) : Host.Outcome State Fault Refusal :=
  finish s <| match s.getKeyPressed with
    | some k => .done (s.setV x (k.zeroExtend 8))
    | none => .wait

/-- Fx15 (R211). -/
def execLdDtVx (x : RegIdx) (s : State) : Host.Outcome State Fault Refusal :=
  finish s (.done (s.setDt (s.getV x)))

/-- Fx18 (R212). -/
def execLdStVx (x : RegIdx) (s : State) : Host.Outcome State Fault Refusal :=
  finish s (.done (s.setSt (s.getV x)))

end Sys2Proof.Machine
end

