-- ==== Sys2Proof/Machine/Step.lean ====
section
/-! DEFINITION. One tick as a step (spec/40_control_flow.md R100), and the placing of an instruction where the next step
fetches it. -/

namespace Sys2Proof.Machine

/-- One tick (R100). A state whose fault mark is set has no step: it answers that fault again (R244). A fetch out of
range enters the fault state; any other fetch runs the decoded instruction. -/
def step (s : State) : Host.Outcome State Fault Refusal :=
  match s.fault with
  | some k => .fault k
  | none =>
    match fetch s with
    | .error k => .next (s.raiseFault k)
    | .ok w => exec (decode w) s

/-- `s` with the instruction of the table word `w` stored where the next step fetches (log entry 12). The fetch needs no
fault mark and a PC of at most 0xFFE; a PC above that is set to 0x200, the entry point. -/
def State.withFetchWord (s : State) (nbits w : Nat) : State :=
  let word : Word := BitVec.ofNat 16 (w % 2 ^ nbits)
  let pc : Word := if s.pc.toNat > 0xFFE then 0x200 else s.pc
  { s with
    pc := pc
    fault := none
    mem := Memory.writeBytes s.mem pc.toNat [word.hi, word.lo] }

end Sys2Proof.Machine
end

