-- ==== Sys2Proof/Machine/Tick.lean ====
section
/-! DEFINITION. The tick with the result it returns to the host (spec/40_control_flow.md R100, 10_state.md R32). -/

namespace Sys2Proof.Machine

/-- What the host is told of a tick that began in `s` and left `t`: `Faulted` with the mark that was set (R244),
`WaitingForKey` when nothing changed (R214: an advancing tick always changes TC, R216), else `Advanced`. DEDUCED (safe,
log entry 7). -/
def resultOf (s t : State) : TickResult :=
  match t.fault with
  | some k => .faulted k
  | none => if t = s then .waitingForKey else .advanced

/-- `tick()`: the result and the state after it (R100). A faulted core answers its fault again and changes nothing
(R244). The third case is there for totality: no arm of exec refuses. -/
def tick (s : State) : TickResult × State :=
  match step s with
  | .next t => (resultOf s t, t)
  | .fault k => (.faulted k, s)
  | .refused _ => (.waitingForKey, s)

end Sys2Proof.Machine
end

