-- ==== Sys2Proof/Machine/HostOps.lean ====
section
/-! DEFINITION. The operations the host may apply between ticks (spec/60_exceptions.md R263, 70_reset_and_hazards.md). -/

namespace Sys2Proof.Machine

/-- `load_font(bytes[0x50])` (R273). -/
def State.loadFont (font : Vector Byte 80) (s : State) : State :=
  s.setMem (Memory.writeBytes s.mem 0 font.toList)

/-- `reset()` with the session's parameters (R270). Memory starts from the empty list, in which every address past the
font reads 0, and the font is then loaded. KEYS, SCHIP and the host's random source are not changed. -/
def State.resetOp (p : Config.Params) (s : State) : State :=
  State.loadFont p.font
    { s with
      v := Vector.replicate 16 0
      i := 0
      pc := 0x200
      sp := 0
      stack := Vector.replicate Config.stackDepth 0
      dt := 0
      st := 0
      tc := p.timerDividerReset
      mem := []
      fault := none }

/-- What a host operation can report instead of acting (R242). -/
inductive HostError where
  /-- load_program was given more than 0xE00 bytes (R272). -/
  | programTooLarge
  deriving DecidableEq, Repr

/-- `load_program(bytes)` (R271): the program at 0x200, zeros from its end to the end of memory; an oversized program is
reported and changes nothing (R272, log entry 15). -/
def State.loadProgram (bytes : List Byte) (s : State) : Except HostError State :=
  if bytes.length > Config.maxProgram then .error .programTooLarge
  else .ok (s.setMem (Memory.writeBytes s.mem Config.progBase
    (bytes ++ List.replicate (Config.maxProgram - bytes.length) 0)))

/-- Set the whole key file (R263). -/
def State.setKeys (ks : Vector Bool 16) (s : State) : State := { s with keys := ks }

/-- Set or clear one key (R263). -/
def State.setKey (k : RegIdx) (down : Bool) (s : State) : State := { s with keys := s.keys.set k.toNat down k.isLt }

/-- The 256 display bytes the frame renderer reads (R200). -/
def State.displayBytes (s : State) : List Byte :=
  (List.range Config.screenLen).map fun k => s.readMem (Config.screenBase + k)

/-- The sound-active signal, ST > 0 (R262). -/
def State.soundActive (s : State) : Bool := decide (s.st.toNat > 0)

/-- What the host can do between ticks (R263, log entry 13). -/
inductive HostAction where
  | tick
  | setKeys (ks : Vector Bool 16)
  | setKey (k : RegIdx) (down : Bool)
  | readDisplay
  | readSound
  | reset
  | loadProgram (bytes : List Byte)
  | loadFont (font : Vector Byte 80)
  deriving DecidableEq, Repr

/-- The state an action leaves. The two reads change nothing (R200, R262), nor does a load that is reported as too
large (R272). -/
def State.act (p : Config.Params) (s : State) : HostAction → State
  | .tick => (Machine.tick s).2
  | .setKeys ks => s.setKeys ks
  | .setKey k down => s.setKey k down
  | .readDisplay => s
  | .readSound => s
  | .reset => s.resetOp p
  | .loadProgram bytes =>
    match s.loadProgram bytes with
    | .ok t => t
    | .error _ => s
  | .loadFont font => s.loadFont font

end Sys2Proof.Machine
end

