-- ==== Sys2Proof/Safety.lean ====
section
/-! DEFINITION. The vocabulary of the claims: what a tick keeps, what it does to the timers, when it faults, the
invariant of the machine, and when a run has finished. -/

namespace Sys2Proof.Machine

/-! ## What a tick keeps -/

/-- Every V register but those listed holds what it held. -/
def RegsKeptExcept (xs : List RegIdx) (s t : State) : Prop := ∀ r, r ∉ xs → t.getV r = s.getV r

/-- Every byte of memory reads as before. -/
def MemKept (s t : State) : Prop := ∀ a, t.readMem a = s.readMem a

/-- Every byte of memory outside the `len` bytes from `lo` reads as before. -/
def MemKeptOutside (lo len : Nat) (s t : State) : Prop := ∀ a, a < lo ∨ lo + len ≤ a → t.readMem a = s.readMem a

/-- SP and every stack entry are as before. -/
def StackKept (s t : State) : Prop := t.sp = s.sp ∧ t.stack = s.stack

/-- KEYS and SCHIP, the fault mark, and the count of random draws are as before. -/
def InputsKept (s t : State) : Prop :=
  t.keys = s.keys ∧ t.schip = s.schip ∧ t.fault = s.fault ∧ t.draws = s.draws

/-- The timer-divider step from TC of `s` with the timers at `dt` and `st` (R216): when TC is 0 it becomes 9 and both
timers count down, floored at 0; else TC alone counts down. -/
def TimersStepped (dt st : Byte) (s t : State) : Prop :=
  (s.tc.val = 0 → t.tc.val = 9 ∧ t.dt.toNat = dt.toNat - 1 ∧ t.st.toNat = st.toNat - 1) ∧
  (0 < s.tc.val → t.tc.val + 1 = s.tc.val ∧ t.dt = dt ∧ t.st = st)

/-- An advancing tick that changes nothing but PC, the timers by the divider step, and V registers among those listed. -/
def OnlyRegsAndPc (xs : List RegIdx) (s t : State) : Prop :=
  RegsKeptExcept xs s t ∧ t.i = s.i ∧ StackKept s t ∧ MemKept s t ∧ InputsKept s t ∧ TimersStepped s.dt s.st s t

/-- The outcome with its next state changed by `f`. -/
def mapNext (f : State → State) : Host.Outcome State Fault Refusal → Host.Outcome State Fault Refusal
  | .next t => .next (f t)
  | .fault k => .fault k
  | .refused r => .refused r

/-! ## The instruction a tick runs -/

/-- The instruction the two bytes at PC and PC + 1 decode to (R51, R73). -/
def State.instrAtPc (s : State) : Instr :=
  decode (wordOfBytes (s.readMem s.pc.toNat) (s.readMem (s.pc.toNat + 1)))

/-- The V registers an instruction writes when it advances (R23). -/
def writtenRegs : Instr → List RegIdx
  | .ldImm x _ | .addImm x _ | .rnd x _ => [x]
  | .ldReg x _ | .orReg x _ | .andReg x _ | .xorReg x _ => [x]
  | .addReg x _ | .subReg x _ | .shrReg x _ | .subnReg x _ | .shlReg x _ => [x, vf]
  | .drw _ _ _ => [vf]
  | .ldVxDt x | .ldVxK x => [x]
  | .ldVxMem x => regsUpTo x
  | .cls | .ret | .jp _ | .call _ | .jpV0 _ => []
  | .seImm _ _ | .sneImm _ _ | .seReg _ _ | .sneReg _ _ | .skp _ | .sknp _ => []
  | .ldI _ | .ldDtVx _ | .ldStVx _ | .addIVx _ | .ldFVx _ | .ldBVx _ | .ldMemVx _ => []
  | .sys _ | .nop5 _ _ _ | .nop8 _ _ _ | .nop9 _ _ _ | .nopE _ _ | .nopF _ _ => []

/-! ## Faults -/

/-- The height of Dxyn after clipping (R191). -/
def drawnHeight (s : State) (y : RegIdx) (n : Nibble) : Nat := min n.toNat (32 - (s.getV y).toNat % 32)

/-- The cause of each fault kind, as the table of R241 gives it: the fetch check, or the cause of the one kind the
instruction at PC can raise. -/
def FaultCause (s : State) : Fault → Prop
  | .fetchOutOfRange => 0xFFE < s.pc.toNat
  | .memoryOutOfRange => s.pc.toNat ≤ 0xFFE ∧
      ((∃ x, s.instrAtPc = .ldBVx x ∧ 0xFFF < s.i.toNat + 2) ∨
       (∃ x, s.instrAtPc = .ldMemVx x ∧ 0xFFF < s.i.toNat + x.toNat) ∨
       (∃ x, s.instrAtPc = .ldVxMem x ∧ 0xFFF < s.i.toNat + x.toNat) ∨
       (∃ x y n, s.instrAtPc = .drw x y n ∧ 0 < drawnHeight s y n ∧ 0xFFF < s.i.toNat + drawnHeight s y n - 1))
  | .stackOverflow => s.pc.toNat ≤ 0xFFE ∧ (∃ nnn, s.instrAtPc = .call nnn) ∧ s.sp.val = 20
  | .stackUnderflow => s.pc.toNat ≤ 0xFFE ∧ s.instrAtPc = .ret ∧ s.sp.val = 0
  | .indexOverflow => s.pc.toNat ≤ 0xFFE ∧ ∃ x, s.instrAtPc = .addIVx x ∧ 0xFFFF < s.i.toNat + (s.getV x).toNat

/-- Every key is up. -/
def NoKeyDown (s : State) : Prop := ∀ k : RegIdx, s.keys[k.toNat]'k.isLt = false

/-! ## The invariant -/

/-- What holds of every state a run reaches: memory in its canonical form, PC in 0x000..0x10FE (R101), every stack entry
an address an instruction was fetched from, or 0 (R28, R101). SP in 0..20 and TC in 0..9 (R26) are carried by their
types. -/
structure Inv (s : State) : Prop where
  memory : Memory.wf s.mem = true
  pcRange : s.pc.toNat ≤ 0x10FE
  stackRange : ∀ (j : Nat) (h : j < Config.stackDepth), s.stack[j].toNat ≤ 0xFFE

/-! ## The end of a run -/

/-- A state in which the run has not failed: no fault is marked (R245). -/
def NotFaulted (s : State) : Prop := s.fault = none

/-- The spec's convention for a finished test program (R264, D26): not faulted, and PC at a jump to itself. -/
def AtSelfLoop (s : State) : Prop :=
  NotFaulted s ∧ ∃ nnn : Addr12, s.instrAtPc = .jp nnn ∧ s.pc.toNat = nnn.toNat ∧ s.pc.toNat ≤ 0xFFE

/-! ## The sprite of Dxyn as pixels -/

/-- The byte row r of a draw writes first (R191): origin wrapped, one row of 8 bytes per line. -/
def rowByte (x y : Byte) (r : Nat) : Nat := 0xF00 + x.toNat % 64 / 8 + (y.toNat % 32 + r) * 8

/-- Row r of a draw also writes the byte after `rowByte`: the sprite is shifted and the column is not the last (R191). -/
def rowSpills (x : Byte) : Prop := x.toNat % 64 % 8 ≠ 0 ∧ x.toNat % 64 / 8 < 7

/-- Address `a` is one of the display bytes a draw of h rows writes (R191). -/
def drawWrites (x y : Byte) (h a : Nat) : Prop :=
  ∃ r, r < h ∧ (a = rowByte x y r ∨ (rowSpills x ∧ a = rowByte x y r + 1))

/-- The sprite of Dxyn has an on bit over pixel (px, py): origin (Vx mod 64, Vy mod 32), 8 pixels wide, n rows, the
leftmost pixel in bit 7 (R190 to R192). -/
def spriteCovers (s : State) (x y : RegIdx) (n : Nibble) (px py : Nat) : Bool :=
  let ox := (s.getV x).toNat % 64
  let oy := (s.getV y).toNat % 32
  decide (ox ≤ px ∧ px < ox + 8 ∧ oy ≤ py ∧ py < oy + n.toNat) &&
    (s.readMem (s.i.toNat + (py - oy))).getLsbD (7 - (px - ox))

end Sys2Proof.Machine
end

