-- ==== Sys2Proof/Certificates/Slice0/Obligations.lean ====
section
/-! DEFINITION. The statements for the provers, each from the numbered rules of spec/ that its docstring names. A
statement about an instruction says that exec answers a next state, what that state holds, and everything it keeps. -/

open Sys2Proof Sys2Proof.Machine

/-! ## Control transfer -/

/-- R102: JP nnn goes to nnn, whatever nnn is, and changes nothing else but the timers. -/
def Obligations.JumpGoesToTarget : Prop :=
  ∀ (nnn : Addr12) (s : State),
    decode (encNNN 0x1 nnn) = .jp nnn ∧
    ∃ t, exec (.jp nnn) s = .next t ∧ t.pc.toNat = nnn.toNat ∧ OnlyRegsAndPc [] s t

/-- R103: CALL nnn stores its own address at stack[SP], counts SP up and goes to nnn; with 20 entries in use it raises
StackOverflow and changes nothing else. -/
def Obligations.CallPushesItsAddressAndJumps : Prop :=
  ∀ (nnn : Addr12) (s : State),
    decode (encNNN 0x2 nnn) = .call nnn ∧
    (∀ h : s.sp.val < 20, ∃ t, exec (.call nnn) s = .next t ∧
      t.pc.toNat = nnn.toNat ∧ t.sp.val = s.sp.val + 1 ∧ t.stack[s.sp.val] = s.pc ∧
      (∀ (j : Nat) (hj : j < 20), j ≠ s.sp.val → t.stack[j] = s.stack[j]) ∧
      RegsKeptExcept [] s t ∧ t.i = s.i ∧ MemKept s t ∧ InputsKept s t ∧ TimersStepped s.dt s.st s t) ∧
    (s.sp.val = 20 → exec (.call nnn) s = .next { s with fault := some .stackOverflow })

/-- R104: RET counts SP down and goes to the instruction after the address it reads at stack[SP], which it keeps; with
SP = 0 it raises StackUnderflow and changes nothing else. -/
def Obligations.ReturnGoesPastTheCall : Prop :=
  decode 0x00EE = .ret ∧
  ∀ s : State,
    (∀ h : 0 < s.sp.val, ∃ t, exec .ret s = .next t ∧
      t.sp.val + 1 = s.sp.val ∧ t.pc = s.stack[s.sp.val - 1]'(by have := s.sp.isLt; omega) + 2 ∧ t.stack = s.stack ∧
      RegsKeptExcept [] s t ∧ t.i = s.i ∧ MemKept s t ∧ InputsKept s t ∧ TimersStepped s.dt s.st s t) ∧
    (s.sp.val = 0 → exec .ret s = .next { s with fault := some .stackUnderflow })

/-- R105: JP V0, nnn goes to nnn + V0, with no 12-bit mask, in both shift modes. -/
def Obligations.JumpWithOffsetAddsV0 : Prop :=
  ∀ (nnn : Addr12) (s : State),
    decode (encNNN 0xB nnn) = .jpV0 nnn ∧
    ∃ t, exec (.jpV0 nnn) s = .next t ∧ t.pc.toNat = nnn.toNat + (s.getV 0).toNat ∧ OnlyRegsAndPc [] s t

/-- From R103, R104 and R106: a CALL and the RET at its target resume after the CALL with the stack count as before. -/
def Obligations.CallThenReturnResumesAfterCall : Prop :=
  ∀ (nnn : Addr12) (s : State), s.sp.val < 20 →
    ∃ t u, exec (.call nnn) s = .next t ∧ exec .ret t = .next u ∧ u.pc = s.pc + 2 ∧ u.sp = s.sp ∧
      (∀ (j : Nat) (hj : j < 20), j < s.sp.val → u.stack[j] = s.stack[j]) ∧
      RegsKeptExcept [] s u ∧ u.i = s.i ∧ MemKept s u ∧ InputsKept s u

/-! ## Skips -/

/-- R121, R122: 3xkk goes 4 bytes on when Vx equals kk and 2 when not, 4xkk the other way round; nothing else changes
but the timers. -/
def Obligations.SkipsOnImmediate : Prop :=
  ∀ (x : RegIdx) (kk : Byte) (s : State),
    decode (encXKK 0x3 x kk) = .seImm x kk ∧ decode (encXKK 0x4 x kk) = .sneImm x kk ∧
    (∃ t, exec (.seImm x kk) s = .next t ∧ t.pc = s.pc + (if s.getV x = kk then 4 else 2) ∧ OnlyRegsAndPc [] s t) ∧
    (∃ t, exec (.sneImm x kk) s = .next t ∧ t.pc = s.pc + (if s.getV x = kk then 2 else 4) ∧ OnlyRegsAndPc [] s t)

/-- R123, R124: 5xy0 skips when the registers are equal, 9xy0 when they differ. -/
def Obligations.SkipsOnRegisters : Prop :=
  ∀ (x y : RegIdx) (s : State),
    decode (encXYN 0x5 x y 0) = .seReg x y ∧ decode (encXYN 0x9 x y 0) = .sneReg x y ∧
    (∃ t, exec (.seReg x y) s = .next t ∧ t.pc = s.pc + (if s.getV x = s.getV y then 4 else 2) ∧
      OnlyRegsAndPc [] s t) ∧
    (∃ t, exec (.sneReg x y) s = .next t ∧ t.pc = s.pc + (if s.getV x = s.getV y then 2 else 4) ∧
      OnlyRegsAndPc [] s t)

/-- R125, R126: Ex9E skips when the value of Vx is at most 0xF and that key is down, ExA1 when not. -/
def Obligations.SkipsOnKeys : Prop :=
  ∀ (x : RegIdx) (s : State),
    decode (encXKK 0xE x 0x9E) = .skp x ∧ decode (encXKK 0xE x 0xA1) = .sknp x ∧
    ((∃ h : (s.getV x).toNat < 16, s.keys[(s.getV x).toNat] = true) →
      (∃ t, exec (.skp x) s = .next t ∧ t.pc = s.pc + 4 ∧ OnlyRegsAndPc [] s t) ∧
      (∃ t, exec (.sknp x) s = .next t ∧ t.pc = s.pc + 2 ∧ OnlyRegsAndPc [] s t)) ∧
    ((∀ h : (s.getV x).toNat < 16, s.keys[(s.getV x).toNat] = false) →
      (∃ t, exec (.skp x) s = .next t ∧ t.pc = s.pc + 2 ∧ OnlyRegsAndPc [] s t) ∧
      (∃ t, exec (.sknp x) s = .next t ∧ t.pc = s.pc + 4 ∧ OnlyRegsAndPc [] s t))

/-! ## Loads, arithmetic and logic -/

/-- R142, R144: 6xkk loads kk, 8xy0 copies Vy; no flag, whichever register x is. -/
def Obligations.LoadsSetVx : Prop :=
  ∀ (x y : RegIdx) (kk : Byte) (s : State),
    decode (encXKK 0x6 x kk) = .ldImm x kk ∧ decode (encXYN 0x8 x y 0) = .ldReg x y ∧
    (∃ t, exec (.ldImm x kk) s = .next t ∧ t.getV x = kk ∧ t.pc = s.pc + 2 ∧ OnlyRegsAndPc [x] s t) ∧
    (∃ t, exec (.ldReg x y) s = .next t ∧ t.getV x = s.getV y ∧ t.pc = s.pc + 2 ∧ OnlyRegsAndPc [x] s t)

/-- R143: 7xkk adds kk modulo 256 and writes no flag; VF changes only when x is F. -/
def Obligations.AddImmediateWrapsWithoutFlag : Prop :=
  ∀ (x : RegIdx) (kk : Byte) (s : State),
    decode (encXKK 0x7 x kk) = .addImm x kk ∧
    ∃ t, exec (.addImm x kk) s = .next t ∧ (t.getV x).toNat = ((s.getV x).toNat + kk.toNat) % 256 ∧
      t.pc = s.pc + 2 ∧ OnlyRegsAndPc [x] s t

/-- R145, R146, R147: the three logical operations, bit by bit, with VF not reset. -/
def Obligations.LogicWorksBitByBitWithoutFlag : Prop :=
  ∀ (x y : RegIdx) (s : State),
    decode (encXYN 0x8 x y 1) = .orReg x y ∧ decode (encXYN 0x8 x y 2) = .andReg x y ∧
    decode (encXYN 0x8 x y 3) = .xorReg x y ∧
    (∃ t, exec (.orReg x y) s = .next t ∧
      (∀ k, (t.getV x).getLsbD k = ((s.getV x).getLsbD k || (s.getV y).getLsbD k)) ∧
      t.pc = s.pc + 2 ∧ OnlyRegsAndPc [x] s t) ∧
    (∃ t, exec (.andReg x y) s = .next t ∧
      (∀ k, (t.getV x).getLsbD k = ((s.getV x).getLsbD k && (s.getV y).getLsbD k)) ∧
      t.pc = s.pc + 2 ∧ OnlyRegsAndPc [x] s t) ∧
    (∃ t, exec (.xorReg x y) s = .next t ∧
      (∀ k, (t.getV x).getLsbD k = ((s.getV x).getLsbD k ^^ (s.getV y).getLsbD k)) ∧
      t.pc = s.pc + 2 ∧ OnlyRegsAndPc [x] s t)

/-- R148: 8xy4 adds modulo 256 and VF ends as the carry, also when x or y is F. -/
def Obligations.AddSetsCarry : Prop :=
  ∀ (x y : RegIdx) (s : State),
    decode (encXYN 0x8 x y 4) = .addReg x y ∧
    ∃ t, exec (.addReg x y) s = .next t ∧
      (x ≠ 0xF → (t.getV x).toNat = ((s.getV x).toNat + (s.getV y).toNat) % 256) ∧
      (t.getV 0xF).toNat = (if (s.getV x).toNat + (s.getV y).toNat > 255 then 1 else 0) ∧
      t.pc = s.pc + 2 ∧ OnlyRegsAndPc [x, 0xF] s t

/-- R149, R151: 8xy5 and 8xy7 subtract modulo 256 and VF ends as NOT borrow, also when x or y is F. -/
def Obligations.SubtractionsSetNotBorrow : Prop :=
  ∀ (x y : RegIdx) (s : State),
    decode (encXYN 0x8 x y 5) = .subReg x y ∧ decode (encXYN 0x8 x y 7) = .subnReg x y ∧
    (∃ t, exec (.subReg x y) s = .next t ∧
      (x ≠ 0xF → ((t.getV x).toNat : Int) = ((s.getV x).toNat - (s.getV y).toNat : Int) % 256) ∧
      (t.getV 0xF).toNat = (if (s.getV x).toNat < (s.getV y).toNat then 0 else 1) ∧
      t.pc = s.pc + 2 ∧ OnlyRegsAndPc [x, 0xF] s t) ∧
    (∃ t, exec (.subnReg x y) s = .next t ∧
      (x ≠ 0xF → ((t.getV x).toNat : Int) = ((s.getV y).toNat - (s.getV x).toNat : Int) % 256) ∧
      (t.getV 0xF).toNat = (if (s.getV y).toNat < (s.getV x).toNat then 0 else 1) ∧
      t.pc = s.pc + 2 ∧ OnlyRegsAndPc [x, 0xF] s t)

/-- R150, R152: 8xy6 and 8xyE shift Vx in schip mode and Vy in standard mode by one, and VF ends as the bit shifted out,
also when x or y is F. -/
def Obligations.ShiftsSetTheBitShiftedOut : Prop :=
  ∀ (x y : RegIdx) (s : State),
    decode (encXYN 0x8 x y 6) = .shrReg x y ∧ decode (encXYN 0x8 x y 0xE) = .shlReg x y ∧
    (∃ t, exec (.shrReg x y) s = .next t ∧
      (x ≠ 0xF → (t.getV x).toNat = (if s.schip = true then s.getV x else s.getV y).toNat / 2) ∧
      (t.getV 0xF).toNat = (if s.schip = true then s.getV x else s.getV y).toNat % 2 ∧
      t.pc = s.pc + 2 ∧ OnlyRegsAndPc [x, 0xF] s t) ∧
    (∃ t, exec (.shlReg x y) s = .next t ∧
      (x ≠ 0xF → (t.getV x).toNat = (if s.schip = true then s.getV x else s.getV y).toNat * 2 % 256) ∧
      (t.getV 0xF).toNat = (if s.schip = true then s.getV x else s.getV y).toNat / 128 ∧
      t.pc = s.pc + 2 ∧ OnlyRegsAndPc [x, 0xF] s t)

/-- From R153: Cxkk takes one byte of the random source, whatever it is, and leaves it masked by kk in Vx. The byte is the
free value of log entry 5, and the statement holds for every value of it. -/
def Obligations.RandomByteIsMaskedAndDrawnOnce : Prop :=
  ∀ (x : RegIdx) (kk : Byte) (s : State),
    decode (encXKK 0xC x kk) = .rnd x kk ∧
    ∃ t, exec (.rnd x kk) s = .next t ∧
      (∀ k, (t.getV x).getLsbD k = ((Config.randomByte s.draws).getLsbD k && kk.getLsbD k)) ∧
      (kk = 0 → t.getV x = 0) ∧ t.draws = s.draws + 1 ∧ t.pc = s.pc + 2 ∧
      RegsKeptExcept [x] s t ∧ t.i = s.i ∧ StackKept s t ∧ MemKept s t ∧ t.keys = s.keys ∧ t.schip = s.schip ∧
      t.fault = s.fault ∧ TimersStepped s.dt s.st s t

/-! ## The index register and memory transfers -/

/-- R172, R173: Annn loads nnn into I, Fx29 five times Vx with no mask. -/
def Obligations.IndexLoads : Prop :=
  ∀ (x : RegIdx) (nnn : Addr12) (s : State),
    decode (encNNN 0xA nnn) = .ldI nnn ∧ decode (encXKK 0xF x 0x29) = .ldFVx x ∧
    (∃ t, exec (.ldI nnn) s = .next t ∧ t.i.toNat = nnn.toNat ∧ t.pc = s.pc + 2 ∧
      RegsKeptExcept [] s t ∧ StackKept s t ∧ MemKept s t ∧ InputsKept s t ∧ TimersStepped s.dt s.st s t) ∧
    (∃ t, exec (.ldFVx x) s = .next t ∧ t.i.toNat = (s.getV x).toNat * 5 ∧ t.pc = s.pc + 2 ∧
      RegsKeptExcept [] s t ∧ StackKept s t ∧ MemKept s t ∧ InputsKept s t ∧ TimersStepped s.dt s.st s t)

/-- R171: Fx1E adds Vx to I with no mask and no flag; a sum above 0xFFFF raises IndexOverflow and changes nothing
else. -/
def Obligations.AddToIndexFaultsAbove16Bits : Prop :=
  ∀ (x : RegIdx) (s : State),
    decode (encXKK 0xF x 0x1E) = .addIVx x ∧
    (s.i.toNat + (s.getV x).toNat ≤ 0xFFFF → ∃ t, exec (.addIVx x) s = .next t ∧
      t.i.toNat = s.i.toNat + (s.getV x).toNat ∧ t.pc = s.pc + 2 ∧
      RegsKeptExcept [] s t ∧ StackKept s t ∧ MemKept s t ∧ InputsKept s t ∧ TimersStepped s.dt s.st s t) ∧
    (0xFFFF < s.i.toNat + (s.getV x).toNat → exec (.addIVx x) s = .next { s with fault := some .indexOverflow })

/-- R174: Fx33 stores the hundreds, tens and ones of Vx at I, I + 1 and I + 2 and leaves I; when I + 2 is above 0xFFF it
raises MemoryOutOfRange and stores nothing. -/
def Obligations.BcdStoresThreeDigits : Prop :=
  ∀ (x : RegIdx) (s : State),
    decode (encXKK 0xF x 0x33) = .ldBVx x ∧
    (s.i.toNat + 2 ≤ 0xFFF → ∃ t, exec (.ldBVx x) s = .next t ∧
      (t.readMem s.i.toNat).toNat = (s.getV x).toNat / 100 ∧
      (t.readMem (s.i.toNat + 1)).toNat = (s.getV x).toNat / 10 % 10 ∧
      (t.readMem (s.i.toNat + 2)).toNat = (s.getV x).toNat % 10 ∧
      MemKeptOutside s.i.toNat 3 s t ∧ t.pc = s.pc + 2 ∧ t.i = s.i ∧
      RegsKeptExcept [] s t ∧ StackKept s t ∧ InputsKept s t ∧ TimersStepped s.dt s.st s t) ∧
    (0xFFF < s.i.toNat + 2 → exec (.ldBVx x) s = .next { s with fault := some .memoryOutOfRange })

/-- R175: Fx55 stores V0 to Vx at I to I + x and leaves I at I + x + 1, in both shift modes; when I + x is above 0xFFF it
raises MemoryOutOfRange and stores nothing. -/
def Obligations.BlockStoreWritesV0ToVx : Prop :=
  ∀ (x : RegIdx) (s : State),
    decode (encXKK 0xF x 0x55) = .ldMemVx x ∧
    (s.i.toNat + x.toNat ≤ 0xFFF → ∃ t, exec (.ldMemVx x) s = .next t ∧
      (∀ k : RegIdx, k.toNat ≤ x.toNat → t.readMem (s.i.toNat + k.toNat) = s.getV k) ∧
      MemKeptOutside s.i.toNat (x.toNat + 1) s t ∧ t.i.toNat = s.i.toNat + x.toNat + 1 ∧ t.pc = s.pc + 2 ∧
      RegsKeptExcept [] s t ∧ StackKept s t ∧ InputsKept s t ∧ TimersStepped s.dt s.st s t) ∧
    (0xFFF < s.i.toNat + x.toNat → exec (.ldMemVx x) s = .next { s with fault := some .memoryOutOfRange })

/-- R176: Fx65 loads V0 to Vx from I to I + x and leaves I at I + x + 1; when I + x is above 0xFFF it raises
MemoryOutOfRange and loads nothing. -/
def Obligations.BlockLoadReadsV0ToVx : Prop :=
  ∀ (x : RegIdx) (s : State),
    decode (encXKK 0xF x 0x65) = .ldVxMem x ∧
    (s.i.toNat + x.toNat ≤ 0xFFF → ∃ t, exec (.ldVxMem x) s = .next t ∧
      (∀ k : RegIdx, k.toNat ≤ x.toNat → t.getV k = s.readMem (s.i.toNat + k.toNat)) ∧
      (∀ k : RegIdx, x.toNat < k.toNat → t.getV k = s.getV k) ∧
      t.i.toNat = s.i.toNat + x.toNat + 1 ∧ t.pc = s.pc + 2 ∧
      MemKept s t ∧ StackKept s t ∧ InputsKept s t ∧ TimersStepped s.dt s.st s t) ∧
    (0xFFF < s.i.toNat + x.toNat → exec (.ldVxMem x) s = .next { s with fault := some .memoryOutOfRange })

/-- From R62 and R277: what Fx55 stores over the next instruction is what the very next tick runs. -/
def Obligations.StoreIsFetchedByTheNextTick : Prop :=
  ∀ s : State, s.fault = none → s.pc.toNat ≤ 0xFFC → s.i = s.pc + 2 →
    ∃ t, exec (.ldMemVx 1) s = .next t ∧ t.pc = s.i ∧
      ∀ w : Word, w.toNat = (s.getV 0).toNat * 256 + (s.getV 1).toNat → step t = exec (decode w) t

/-! ## Display -/

/-- R199: CLS makes the 256 display bytes 0 and changes nothing else but PC and the timers. -/
def Obligations.ClearScreenZeroesTheBitmap : Prop :=
  decode 0x00E0 = .cls ∧
  ∀ s : State, ∃ t, exec .cls s = .next t ∧
    (∀ a, 0xF00 ≤ a → a ≤ 0xFFF → t.readMem a = 0) ∧ MemKeptOutside 0xF00 0x100 s t ∧ t.pc = s.pc + 2 ∧
    RegsKeptExcept [] s t ∧ t.i = s.i ∧ StackKept s t ∧ InputsKept s t ∧ TimersStepped s.dt s.st s t

/-- From R198, R191 to R193: DRW completes when its clipped sprite lies in memory, VF is then 0 or 1, and nothing else
changes but the display bytes the draw writes, PC and the timers; else it raises MemoryOutOfRange and changes nothing
else, VF included. -/
def Obligations.DrawCompletesAndKeepsTheRest : Prop :=
  ∀ (x y : RegIdx) (n : Nibble) (s : State),
    decode (encXYN 0xD x y n) = .drw x y n ∧
    (s.i.toNat + drawnHeight s y n ≤ 0x1000 ∨ drawnHeight s y n = 0 → ∃ t, exec (.drw x y n) s = .next t ∧
      (t.getV 0xF = 0 ∨ t.getV 0xF = 1) ∧ t.pc = s.pc + 2 ∧ RegsKeptExcept [0xF] s t ∧ t.i = s.i ∧
      (∀ a, ¬ drawWrites (s.getV x) (s.getV y) (drawnHeight s y n) a → t.readMem a = s.readMem a) ∧
      StackKept s t ∧ InputsKept s t ∧ TimersStepped s.dt s.st s t) ∧
    (0 < drawnHeight s y n → 0x1000 < s.i.toNat + drawnHeight s y n →
      exec (.drw x y n) s = .next { s with fault := some .memoryOutOfRange })

/-- R191: draw, whole, with the row order that R194 derives from it. The origin wraps and the height is clipped; no row
leaves the bitmap alone with VF 0; one row more XORs the byte the earlier rows left at its sprite address into its
display byte, and into the next byte when it is shifted and the column is not the last, and VF turns 1 when either met a
lit pixel; a sprite byte above 0xFFF faults. -/
def Obligations.DrawGoesRowByRow : Prop :=
  ∀ (addr height : Nat) (x y : Byte) (s : State),
    draw addr x y height s = draw addr (x &&& 0x3F) (y &&& 0x1F) (min height (32 - y.toNat % 32)) s ∧
    (∃ t, draw addr x y 0 s = .done t ∧ t.getV 0xF = 0 ∧ MemKept s t ∧ RegsKeptExcept [0xF] s t) ∧
    (height < 32 - y.toNat % 32 → addr + height ≤ 0xFFF →
      ∃ t u, draw addr x y height s = .done t ∧ draw addr x y (height + 1) s = .done u ∧
        let sb := t.readMem (addr + height)
        let p := sb >>> (x.toNat % 8)
        let q := sb <<< (8 - x.toNat % 8)
        let a := rowByte x y height
        u.readMem a = t.readMem a ^^^ p ∧
        (rowSpills x → u.readMem (a + 1) = t.readMem (a + 1) ^^^ q) ∧
        (∀ b, b ≠ a → (rowSpills x → b ≠ a + 1) → u.readMem b = t.readMem b) ∧
        (u.getV 0xF = 1 ↔ t.getV 0xF = 1 ∨ t.readMem a &&& p ≠ 0 ∨ (rowSpills x ∧ t.readMem (a + 1) &&& q ≠ 0)) ∧
        (u.getV 0xF = 0 ∨ u.getV 0xF = 1) ∧ RegsKeptExcept [0xF] s u ∧ u = { s with v := u.v, mem := u.mem }) ∧
    (0 < min height (32 - y.toNat % 32) → 0xFFF < addr + min height (32 - y.toNat % 32) - 1 →
      draw addr x y height s = .raise .memoryOutOfRange)

/-- R196: Dxy0 sets VF to 0 and changes nothing else but PC and the timers, wherever I points. -/
def Obligations.DrawOfHeightZeroOnlyClearsVf : Prop :=
  ∀ (x y : RegIdx) (s : State),
    ∃ t, exec (.drw x y 0) s = .next t ∧ t.getV 0xF = 0 ∧ t.pc = s.pc + 2 ∧ OnlyRegsAndPc [0xF] s t

/-- From R190 to R192 and R195: for a sprite that lies below the bitmap, DRW flips exactly the pixels its on bits cover,
clipped at the right and bottom edges, and VF is 1 exactly when one of them was lit. -/
def Obligations.DrawFlipsExactlyTheCoveredPixels : Prop :=
  ∀ (x y : RegIdx) (n : Nibble) (s : State), s.i.toNat + n.toNat ≤ 0xF00 →
    ∃ t, exec (.drw x y n) s = .next t ∧
      (∀ px py, px < 64 → py < 32 → t.pixelOn px py = (s.pixelOn px py ^^ spriteCovers s x y n px py)) ∧
      (t.getV 0xF = 1 ↔ ∃ px py, px < 64 ∧ py < 32 ∧ s.pixelOn px py = true ∧ spriteCovers s x y n px py = true) ∧
      (t.getV 0xF = 0 ∨ t.getV 0xF = 1)

/-- From R191, as R197 derives: two draws with the same arguments, whose sprite bytes lie outside the display bytes they
write, leave memory as it was, and the second reports a collision exactly when the first turned a pixel on. -/
def Obligations.DrawTwiceRestoresTheBitmap : Prop :=
  ∀ (addr height : Nat) (x y : Byte) (s : State),
    let h := min height (32 - y.toNat % 32)
    (h = 0 ∨ addr + h ≤ 0x1000) → (∀ r, r < h → ¬ drawWrites x y h (addr + r)) →
    ∃ t u, draw addr x y height s = .done t ∧ draw addr x y height t = .done u ∧ MemKept s u ∧
      (u.getV 0xF = 1 ↔ ∃ a k, (s.readMem a).getLsbD k = false ∧ (t.readMem a).getLsbD k = true)

/-- R190, R262: a pixel is the bit of mask 0x80 >> (px & 7) in byte 0xF00 + 8 py + (px >> 3); the sound signal is
ST > 0; the renderer reads the display bytes in order. -/
def Obligations.HostReadsPixelsAndSound : Prop :=
  ∀ s : State,
    (∀ px py, px < 64 → py < 32 →
      (s.pixelOn px py = true ↔
        s.readMem (0xF00 + py * 8 + px / 8) &&& ((0x80 : Byte) >>> (px % 8)) ≠ 0)) ∧
    (∀ k, k < 256 → s.displayBytes[k]? = some (s.readMem (0xF00 + k))) ∧
    (s.soundActive = true ↔ s.st ≠ 0)

/-! ## Timers and keys -/

/-- R210, R211, R212: Fx07 reads DT as it was before the tick's own timer step; Fx15 and Fx18 write a value that the same
tick's timer step already counts down when TC was 0. -/
def Obligations.TimerReadsAndWrites : Prop :=
  ∀ (x : RegIdx) (s : State),
    decode (encXKK 0xF x 0x07) = .ldVxDt x ∧ decode (encXKK 0xF x 0x15) = .ldDtVx x ∧
    decode (encXKK 0xF x 0x18) = .ldStVx x ∧
    (∃ t, exec (.ldVxDt x) s = .next t ∧ t.getV x = s.dt ∧ t.pc = s.pc + 2 ∧ OnlyRegsAndPc [x] s t) ∧
    (∃ t, exec (.ldDtVx x) s = .next t ∧ TimersStepped (s.getV x) s.st s t ∧ t.pc = s.pc + 2 ∧
      RegsKeptExcept [] s t ∧ t.i = s.i ∧ StackKept s t ∧ MemKept s t ∧ InputsKept s t) ∧
    (∃ t, exec (.ldStVx x) s = .next t ∧ TimersStepped s.dt (s.getV x) s t ∧ t.pc = s.pc + 2 ∧
      RegsKeptExcept [] s t ∧ t.i = s.i ∧ StackKept s t ∧ MemKept s t ∧ InputsKept s t)

/-- R213, R220: Fx0A stores the lowest key that is down and advances; with every key up the tick changes nothing at
all. -/
def Obligations.WaitForKeyStoresTheLowestOrFreezes : Prop :=
  ∀ (x : RegIdx) (s : State),
    decode (encXKK 0xF x 0x0A) = .ldVxK x ∧
    (∀ k : RegIdx, s.keys[k.toNat]'k.isLt = true → (∀ j : RegIdx, j.toNat < k.toNat → s.keys[j.toNat]'j.isLt = false) →
      s.getKeyPressed = some k ∧
      ∃ t, exec (.ldVxK x) s = .next t ∧ (t.getV x).toNat = k.toNat ∧ t.pc = s.pc + 2 ∧ OnlyRegsAndPc [x] s t) ∧
    (NoKeyDown s → s.getKeyPressed = none ∧ exec (.ldVxK x) s = .next s)

/-- From R216: the timer-divider step, on the timers and on everything else. -/
def Obligations.TimerDividerStepRule : Prop :=
  ∀ s : State,
    TimersStepped s.dt s.st s s.timerDividerStep ∧ s.timerDividerStep.pc = s.pc ∧
    RegsKeptExcept [] s s.timerDividerStep ∧ s.timerDividerStep.i = s.i ∧ StackKept s s.timerDividerStep ∧
    MemKept s s.timerDividerStep ∧ InputsKept s s.timerDividerStep

/-- From R217: whatever the phase of TC, ten timer-divider steps bring TC back and count DT and ST down once, floored at
0. -/
def Obligations.TenTimerStepsCountDownOnce : Prop :=
  ∀ s : State,
    ((State.timerDividerStep^[10]) s).tc = s.tc ∧
    ((State.timerDividerStep^[10]) s).dt.toNat = s.dt.toNat - 1 ∧
    ((State.timerDividerStep^[10]) s).st.toNat = s.st.toNat - 1

/-! ## No-op words -/

/-- R230 to R235: each of the six no-op spaces decodes to its no-op, and a no-op changes PC and the timers alone. -/
def Obligations.NoOpWordsOnlyAdvance : Prop :=
  ∀ (nnn : Addr12) (x y : RegIdx) (n : Nibble) (kk : Byte) (s : State),
    (nnn ≠ 0x0E0 → nnn ≠ 0x0EE → decode (encNNN 0x0 nnn) = .sys nnn) ∧
    (n ≠ 0 → decode (encXYN 0x5 x y n) = .nop5 x y n) ∧
    (7 < n.toNat → n ≠ 0xE → decode (encXYN 0x8 x y n) = .nop8 x y n) ∧
    (n ≠ 0 → decode (encXYN 0x9 x y n) = .nop9 x y n) ∧
    (kk ≠ 0x9E → kk ≠ 0xA1 → decode (encXKK 0xE x kk) = .nopE x kk) ∧
    (kk ∉ [0x07, 0x0A, 0x15, 0x18, 0x1E, 0x29, 0x33, 0x55, 0x65] → decode (encXKK 0xF x kk) = .nopF x kk) ∧
    (∀ i ∈ [Instr.sys nnn, .nop5 x y n, .nop8 x y n, .nop9 x y n, .nopE x kk, .nopF x kk],
      ∃ t, exec i s = .next t ∧ t.pc = s.pc + 2 ∧ OnlyRegsAndPc [] s t)

/-! ## The tick -/

/-- R51, with R100: with no fault marked, a PC above 0xFFE makes the tick mark FetchOutOfRange and change nothing else; any
other PC, odd or even, makes it run the instruction of the word whose high byte is at PC and low byte at PC + 1. -/
def Obligations.StepRunsTheDecodedInstruction : Prop :=
  ∀ s : State, s.fault = none →
    (0xFFE < s.pc.toNat → step s = .next { s with fault := some .fetchOutOfRange }) ∧
    (s.pc.toNat ≤ 0xFFE →
      (∀ w : Word, w.toNat = (s.readMem s.pc.toNat).toNat * 256 + (s.readMem (s.pc.toNat + 1)).toNat →
        step s = exec (decode w) s) ∧
      ∀ i rest, decodeBytes [s.readMem s.pc.toNat, s.readMem (s.pc.toNat + 1)] = .ok (i, rest) → step s = exec i s)

/-- R244: a tick that raises a fault leaves the whole Machine State as it was, marks that fault and tells the host of it;
every tick after it changes nothing and tells the host of that fault again. -/
def Obligations.FaultEntryChangesOnlyTheMark : Prop :=
  (∀ (s t : State) (k : Fault), s.fault = none → step s = .next t → t.fault = some k →
    t = { s with fault := some k } ∧ tick s = (.faulted k, t)) ∧
  (∀ (s : State) (k : Fault), s.fault = some k → tick s = (.faulted k, s))

/-- From R244 and R245: once a fault is marked no tick steps, each answers that fault, and nothing changes. -/
def Obligations.FaultedCoreNeverSteps : Prop :=
  ∀ (s : State) (k : Fault), s.fault = some k →
    (∀ t, step s ≠ .next t) ∧ step s = .fault k ∧ ∀ n : Nat, ((fun u => (tick u).2)^[n]) s = s

/-- R241, with R243: from a state with no fault marked the tick always ends in a next state, and marks a fault exactly
when the table's cause of that kind holds, recording its kind alone; at most one cause holds. -/
def Obligations.FaultsExactlyWhenTheTableSays : Prop :=
  ∀ s : State, s.fault = none →
    (∃ t, step s = .next t ∧ (∀ k, t.fault = some k ↔ FaultCause s k) ∧
      ∀ k, t.fault = some k → t = { s with fault := some k }) ∧
    ∀ k k', FaultCause s k → FaultCause s k' → k = k'

/-- From R32, R100 and R214: a tick answers WaitingForKey exactly when it runs Fx0A with every key up, and then changes nothing;
it answers Faulted exactly when it marks a fault, and Advanced otherwise. -/
def Obligations.TickResultTellsWhatHappened : Prop :=
  ∀ s : State, s.fault = none →
    ((tick s).1 = .waitingForKey ↔ s.pc.toNat ≤ 0xFFE ∧ (∃ x, s.instrAtPc = .ldVxK x) ∧ NoKeyDown s) ∧
    ((tick s).1 = .waitingForKey → (tick s).2 = s) ∧
    (∀ k, (tick s).1 = .faulted k ↔ (tick s).2.fault = some k)

/-- From R100, R216 and R278: every tick that advances runs the timer-divider step, after Fx15 or Fx18 has written. -/
def Obligations.EveryAdvancingTickStepsTheTimers : Prop :=
  ∀ s : State, s.fault = none → (tick s).1 = .advanced →
    ∃ dt st, TimersStepped dt st s (tick s).2 ∧
      (∀ x, s.instrAtPc = .ldDtVx x → dt = s.getV x) ∧ ((∀ x, s.instrAtPc ≠ .ldDtVx x) → dt = s.dt) ∧
      (∀ x, s.instrAtPc = .ldStVx x → st = s.getV x) ∧ ((∀ x, s.instrAtPc ≠ .ldStVx x) → st = s.st)

/-- From R264: a jump to itself changes nothing but TC, DT and ST, and is still a jump to itself after. -/
def Obligations.SelfLoopOnlyRunsTheTimers : Prop :=
  ∀ s : State, AtSelfLoop s →
    ∃ t, step s = .next t ∧ AtSelfLoop t ∧ t = { s with tc := t.tc, dt := t.dt, st := t.st }

/-! ## Who writes what -/

/-- From R26, R29 and R252: no tick changes the keys or the schip flag. -/
def Obligations.NoTickChangesKeysOrSchip : Prop :=
  ∀ s t : State, step s = .next t → t.keys = s.keys ∧ t.schip = s.schip

/-- From R23: a tick changes only the V registers that the instruction at PC writes. -/
def Obligations.OnlyListedRegistersAreWritten : Prop :=
  ∀ s t : State, step s = .next t → RegsKeptExcept (writtenRegs s.instrAtPc) s t

/-- From R28: only CALL and RET change SP, and only CALL a stack entry. -/
def Obligations.OnlyCallAndReturnTouchTheStack : Prop :=
  ∀ s t : State, step s = .next t → (∀ nnn, s.instrAtPc ≠ .call nnn) →
    t.stack = s.stack ∧ (s.instrAtPc ≠ .ret → t.sp = s.sp)

/-- From R26 and R280: only Annn, Fx1E, Fx29, Fx55 and Fx65 change I. -/
def Obligations.OnlyFiveInstructionsChangeI : Prop :=
  ∀ s t : State, step s = .next t →
    (∀ nnn, s.instrAtPc ≠ .ldI nnn) →
    (∀ x, s.instrAtPc ≠ .addIVx x ∧ s.instrAtPc ≠ .ldFVx x ∧ s.instrAtPc ≠ .ldMemVx x ∧ s.instrAtPc ≠ .ldVxMem x) →
    t.i = s.i

/-- From R50 and R54: only 00E0, Dxyn, Fx33 and Fx55 change memory; the first two change nothing below the bitmap. -/
def Obligations.OnlyFourInstructionsChangeMemory : Prop :=
  ∀ s t : State, step s = .next t → (∀ x, s.instrAtPc ≠ .ldBVx x ∧ s.instrAtPc ≠ .ldMemVx x) →
    MemKeptOutside 0xF00 0x100 s t ∧
    (s.instrAtPc ≠ .cls → (∀ x y n, s.instrAtPc ≠ .drw x y n) → MemKept s t)

/-- From R261: a tick draws from the random source once if it runs Cxkk, and not otherwise. -/
def Obligations.OnlyRandomDraws : Prop :=
  ∀ s t : State, step s = .next t → s.pc.toNat ≤ 0xFFE →
    (∀ x kk, s.instrAtPc = .rnd x kk → t.draws = s.draws + 1) ∧
    ((∀ x kk, s.instrAtPc ≠ .rnd x kk) → t.draws = s.draws)

/-- From R252 and R80: the schip flag changes what no instruction but the two shifts does. -/
def Obligations.SchipMattersOnlyToShifts : Prop :=
  ∀ (i : Instr) (s : State) (b : Bool), (∀ x y, i ≠ .shrReg x y) → (∀ x y, i ≠ .shlReg x y) →
    exec i { s with schip := b } = mapNext (fun t => { t with schip := b }) (exec i s)

/-- From R218 and R250: the keys change what no instruction but Ex9E, ExA1 and Fx0A does. -/
def Obligations.KeysMatterOnlyToKeyInstructions : Prop :=
  ∀ (i : Instr) (s : State) (ks : Vector Bool 16),
    (∀ x, i ≠ .skp x ∧ i ≠ .sknp x ∧ i ≠ .ldVxK x) →
    exec i { s with keys := ks } = mapNext (fun t => { t with keys := ks }) (exec i s)

/-! ## Decoding and encoding -/

/-- From R73 to R78: decoding the word of a well-formed instruction gives it back, every operand whole. -/
def Obligations.DecodeOfEncodeIsTheInstruction : Prop :=
  ∀ i : Instr, i.wellFormed = true → decode (encode i) = i

/-- From R73 and R79: every word decodes to a well-formed instruction whose word it is, so no bit of it is dropped and no
two words are one instruction. -/
def Obligations.EveryWordIsTheWordOfItsInstruction : Prop :=
  ∀ w : Word, (decode w).wellFormed = true ∧ encode (decode w) = w

/-- A word of every group, written out from R70 and R73. -/
def Obligations.SampleWordsDecode : Prop :=
  decode 0x00E0 = .cls ∧ decode 0x00EE = .ret ∧ decode 0x01E0 = .sys 0x1E0 ∧ decode 0x1234 = .jp 0x234 ∧
  decode 0x2210 = .call 0x210 ∧ decode 0x3312 = .seImm 3 0x12 ∧ decode 0x4312 = .sneImm 3 0x12 ∧
  decode 0x5120 = .seReg 1 2 ∧ decode 0x7101 = .addImm 1 0x01 ∧ decode 0x9120 = .sneReg 1 2 ∧ decode 0xA2F0 = .ldI 0x2F0 ∧
  decode 0x6C17 = .ldImm 0xC 0x17 ∧ decode 0x8126 = .shrReg 1 2 ∧ decode 0x812F = .nop8 1 2 0xF ∧
  decode 0xBF01 = .jpV0 0xF01 ∧ decode 0xCAFE = .rnd 0xA 0xFE ∧ decode 0xD123 = .drw 1 2 3 ∧
  decode 0xE59E = .skp 5 ∧ decode 0xFA33 = .ldBVx 0xA ∧ decode 0xF130 = .nopF 1 0x30

/-! ## Reset, loading and the invariant -/

/-- R270 and R35: reset() leaves the values of the table, for every choice of the session's parameters, and does not
change KEYS or SCHIP. -/
def Obligations.ResetLeavesTheTable : Prop :=
  ∀ (p : Config.Params) (s : State),
    let t := s.resetOp p
    (∀ r, t.getV r = 0) ∧ t.i = 0 ∧ t.pc = 0x200 ∧ t.sp = 0 ∧ (∀ (j : Nat) (h : j < 20), t.stack[j] = 0) ∧
    t.dt = 0 ∧ t.st = 0 ∧ t.tc = p.timerDividerReset ∧
    (∀ (a : Nat) (h : a < 0x50), t.readMem a = p.font[a]) ∧ (∀ a, 0x50 ≤ a → a ≤ 0xFFF → t.readMem a = 0) ∧
    t.fault = none ∧ t.keys = s.keys ∧ t.schip = s.schip

/-- R271, R272: load_program puts the program at 0x200 and zeros behind it, and touches nothing else; more than 0xE00
bytes are reported as ProgramTooLarge. -/
def Obligations.LoadProgramFillsFromTheEntryPoint : Prop :=
  ∀ (bytes : List Byte) (s : State),
    (bytes.length ≤ 0xE00 → ∃ t, s.loadProgram bytes = .ok t ∧
      (∀ (k : Nat) (h : k < bytes.length), t.readMem (0x200 + k) = bytes[k]) ∧
      (∀ a, 0x200 + bytes.length ≤ a → a ≤ 0xFFF → t.readMem a = 0) ∧
      (∀ a, a < 0x200 → t.readMem a = s.readMem a) ∧
      t = { s with mem := t.mem }) ∧
    (0xE00 < bytes.length → s.loadProgram bytes = .error .programTooLarge)

/-- R273: load_font writes the 80 bytes at 0x000 to 0x04F and changes nothing else. -/
def Obligations.LoadFontWritesTheFontArea : Prop :=
  ∀ (font : Vector Byte 80) (s : State),
    (∀ (a : Nat) (h : a < 0x50), (s.loadFont font).readMem a = font[a]) ∧
    (∀ a, 0x50 ≤ a → (s.loadFont font).readMem a = s.readMem a) ∧
    s.loadFont font = { s with mem := (s.loadFont font).mem }

/-- From R24, R28 and R101: every step keeps the invariant, from every state that meets it. -/
def Obligations.StepKeepsTheInvariant : Prop :=
  ∀ s t : State, Inv s → step s = .next t → Inv t

/-- From R263: every action of the host keeps the invariant. -/
def Obligations.HostActionsKeepTheInvariant : Prop :=
  ∀ (p : Config.Params) (s : State) (a : HostAction), Inv s → Inv (s.act p a)

/-- From R35: the machine meets the invariant right after reset, and the state the model calls reset is what reset()
leaves of it with the default parameters (the model's choices of log entries 1 and 4). -/
def Obligations.ResetMeetsTheInvariant : Prop :=
  Inv State.reset ∧ State.reset.resetOp defaultParams = State.reset ∧
  ∀ p : Config.Params, ∀ s : State, Inv (s.resetOp p)
end

