-- ==== Sys2Proof/Laws/Decode.lean ====
section
/-! SUPPORT. Words, fields and encodings as numbers: the value of each field of a word, of a word put together from
fields, and what each field of an encoded word is. -/

namespace Sys2Proof

/-! ## Fields of a word as numbers (R70) -/

theorem Word.group_toNat (w : Word) : (Word.group w).toNat = w.toNat / 4096 := by
  have := w.isLt
  simp only [Word.group, BitVec.extractLsb'_toNat, Nat.shiftRight_eq_div_pow]; omega

theorem Word.x_toNat (w : Word) : (Word.x w).toNat = w.toNat / 256 % 16 := by
  simp only [Word.x, BitVec.extractLsb'_toNat, Nat.shiftRight_eq_div_pow]

theorem Word.y_toNat (w : Word) : (Word.y w).toNat = w.toNat / 16 % 16 := by
  simp only [Word.y, BitVec.extractLsb'_toNat, Nat.shiftRight_eq_div_pow]

theorem Word.n_toNat (w : Word) : (Word.n w).toNat = w.toNat % 16 := by
  simp only [Word.n, BitVec.extractLsb'_toNat, Nat.shiftRight_eq_div_pow]; omega

theorem Word.kk_toNat (w : Word) : (Word.kk w).toNat = w.toNat % 256 := by
  simp only [Word.kk, BitVec.extractLsb'_toNat, Nat.shiftRight_eq_div_pow]; omega

theorem Word.nnn_toNat (w : Word) : (Word.nnn w).toNat = w.toNat % 4096 := by
  simp only [Word.nnn, BitVec.extractLsb'_toNat, Nat.shiftRight_eq_div_pow]; omega

theorem Word.hi_toNat (w : Word) : (Word.hi w).toNat = w.toNat / 256 := by
  have := w.isLt
  simp only [Word.hi, BitVec.extractLsb'_toNat, Nat.shiftRight_eq_div_pow]; omega

theorem Word.lo_toNat (w : Word) : (Word.lo w).toNat = w.toNat % 256 := by
  simp only [Word.lo, BitVec.extractLsb'_toNat, Nat.shiftRight_eq_div_pow]; omega

/-! ## Words put together, as numbers -/

theorem toNat_append_nat {m n : Nat} (a : BitVec m) (b : BitVec n) :
    (a ++ b).toNat = a.toNat * 2 ^ n + b.toNat := by
  rw [BitVec.toNat_append, ← Nat.shiftLeft_add_eq_or_of_lt b.isLt, Nat.shiftLeft_eq]

theorem encNNN_toNat (g : Nibble) (nnn : Addr12) : (encNNN g nnn).toNat = g.toNat * 4096 + nnn.toNat :=
  toNat_append_nat g nnn

theorem encXKK_toNat (g : Nibble) (x : RegIdx) (kk : Byte) :
    (encXKK g x kk).toNat = g.toNat * 4096 + (x.toNat * 256 + kk.toNat) :=
  (toNat_append_nat g (x ++ kk)).trans (congrArg (g.toNat * 4096 + ·) (toNat_append_nat x kk))

theorem encXYN_toNat (g : Nibble) (x y : RegIdx) (n : Nibble) :
    (encXYN g x y n).toNat = g.toNat * 4096 + (x.toNat * 256 + (y.toNat * 16 + n.toNat)) :=
  (toNat_append_nat g (x ++ (y ++ n))).trans (congrArg (g.toNat * 4096 + ·)
    ((toNat_append_nat x (y ++ n)).trans (congrArg (x.toNat * 256 + ·) (toNat_append_nat y n))))

/-- The fetched word is the high byte times 256 plus the low byte (R51). -/
theorem wordOfBytes_toNat (hi lo : Byte) : (wordOfBytes hi lo).toNat = hi.toNat * 256 + lo.toNat :=
  toNat_append_nat hi lo

/-- A word is made of its two bytes. -/
theorem wordOfBytes_hi_lo (w : Word) : wordOfBytes (Word.hi w) (Word.lo w) = w := by
  apply BitVec.eq_of_toNat_eq
  rw [wordOfBytes_toNat, Word.hi_toNat, Word.lo_toNat]; omega

/-! ## Fields of an encoded word -/

@[simp] theorem Word.group_encNNN (g : Nibble) (nnn : Addr12) : Word.group (encNNN g nnn) = g := by
  apply BitVec.eq_of_toNat_eq; rw [Word.group_toNat, encNNN_toNat]; have := nnn.isLt; omega

@[simp] theorem Word.nnn_encNNN (g : Nibble) (nnn : Addr12) : Word.nnn (encNNN g nnn) = nnn := by
  apply BitVec.eq_of_toNat_eq; rw [Word.nnn_toNat, encNNN_toNat]; have := nnn.isLt; omega

@[simp] theorem Word.group_encXKK (g : Nibble) (x : RegIdx) (kk : Byte) : Word.group (encXKK g x kk) = g := by
  apply BitVec.eq_of_toNat_eq; rw [Word.group_toNat, encXKK_toNat]; have := x.isLt; have := kk.isLt; omega

@[simp] theorem Word.x_encXKK (g : Nibble) (x : RegIdx) (kk : Byte) : Word.x (encXKK g x kk) = x := by
  apply BitVec.eq_of_toNat_eq; rw [Word.x_toNat, encXKK_toNat]; have := x.isLt; have := kk.isLt; omega

@[simp] theorem Word.kk_encXKK (g : Nibble) (x : RegIdx) (kk : Byte) : Word.kk (encXKK g x kk) = kk := by
  apply BitVec.eq_of_toNat_eq; rw [Word.kk_toNat, encXKK_toNat]; have := x.isLt; have := kk.isLt; omega

@[simp] theorem Word.group_encXYN (g : Nibble) (x y : RegIdx) (n : Nibble) : Word.group (encXYN g x y n) = g := by
  apply BitVec.eq_of_toNat_eq; rw [Word.group_toNat, encXYN_toNat]
  have := x.isLt; have := y.isLt; have := n.isLt; omega

@[simp] theorem Word.x_encXYN (g : Nibble) (x y : RegIdx) (n : Nibble) : Word.x (encXYN g x y n) = x := by
  apply BitVec.eq_of_toNat_eq; rw [Word.x_toNat, encXYN_toNat]
  have := x.isLt; have := y.isLt; have := n.isLt; omega

@[simp] theorem Word.y_encXYN (g : Nibble) (x y : RegIdx) (n : Nibble) : Word.y (encXYN g x y n) = y := by
  apply BitVec.eq_of_toNat_eq; rw [Word.y_toNat, encXYN_toNat]
  have := x.isLt; have := y.isLt; have := n.isLt; omega

@[simp] theorem Word.n_encXYN (g : Nibble) (x y : RegIdx) (n : Nibble) : Word.n (encXYN g x y n) = n := by
  apply BitVec.eq_of_toNat_eq; rw [Word.n_toNat, encXYN_toNat]
  have := x.isLt; have := y.isLt; have := n.isLt; omega

end Sys2Proof
end

