-- ==== Sys2Proof/Laws/Memory.lean ====
section
/-! SUPPORT. The laws of memory: what a read answers after a write, that every write keeps the canonical form, and that
equal memories in that form are equal data. -/

namespace Sys2Proof.Machine

/-! ## Reading after writing -/

theorem Memory.read_cons (c : Host.Cell) (m : Memory) (x : Nat) :
    Memory.read (c :: m) x = if c.1 = x then c.2 else Memory.read m x := rfl

theorem Memory.read_of_not_mem (m : Memory) (x : Nat) (h : ∀ c ∈ m, c.1 ≠ x) : Memory.read m x = unlisted x := by
  induction m with
  | nil => rfl
  | cons c m ih =>
    rw [Memory.read_cons, if_neg (h c (by simp))]
    exact ih fun d hd => h d (by simp [hd])

theorem Memory.mem_erase (m : Memory) (a : Nat) (c : Host.Cell) : c ∈ Memory.erase m a ↔ c ∈ m ∧ c.1 ≠ a := by
  simp [Memory.erase]

theorem Memory.read_erase (m : Memory) (a x : Nat) :
    Memory.read (Memory.erase m a) x = if x = a then unlisted a else Memory.read m x := by
  split
  case isTrue h =>
    subst h
    exact Memory.read_of_not_mem _ _ fun c hc => ((Memory.mem_erase m x c).1 hc).2
  case isFalse h =>
    induction m with
    | nil => rfl
    | cons c m ih =>
      simp only [Memory.erase, List.filter_cons] at ih ⊢
      by_cases hc : c.1 = a
      · have hx : c.1 ≠ x := fun e => h (e ▸ hc)
        simpa [hc, Memory.read_cons, Ne.symm h] using ih
      · simp only [bne_iff_ne, ne_eq, hc, not_false_eq_true, if_true, Memory.read_cons, ih]

theorem Memory.read_insert (m : Memory) (a : Nat) (b : Byte) (x : Nat) (hm : ∀ c ∈ m, c.1 ≠ a) :
    Memory.read (Memory.insert m a b) x = if x = a then b else Memory.read m x := by
  induction m with
  | nil => simp [Memory.insert, Memory.read_cons, eq_comm]
  | cons c m ih =>
    have hc : c.1 ≠ a := hm c (by simp)
    have ih := ih fun d hd => hm d (by simp [hd])
    unfold Memory.insert
    split
    · rw [Memory.read_cons]; simp [eq_comm]
    · rw [Memory.read_cons, Memory.read_cons, ih]
      by_cases hx : c.1 = x
      · rw [if_pos hx, if_neg (fun e => hc (hx.trans e)), if_pos hx]
      · simp [hx]

/-- Everything a write does: the byte written is read back, every other address reads as before. -/
theorem Memory.read_write (m : Memory) (a : Nat) (b : Byte) (x : Nat) (ha : a < Config.memSize) :
    Memory.read (Memory.write m a b) x = if x = a then b else Memory.read m x := by
  unfold Memory.write
  rw [if_pos ha]
  split
  case isTrue h => rw [Memory.read_erase, h]
  case isFalse h =>
    rw [Memory.read_insert _ _ _ _ fun c hc => ((Memory.mem_erase m a c).1 hc).2, Memory.read_erase]
    split <;> rfl

theorem Memory.read_write_ne (m : Memory) (a : Nat) (b : Byte) (x : Nat) (h : x ≠ a) :
    Memory.read (Memory.write m a b) x = Memory.read m x := by
  by_cases ha : a < Config.memSize
  · rw [Memory.read_write _ _ _ _ ha, if_neg h]
  · simp [Memory.write, ha]

/-- Everything a store of consecutive bytes does. -/
theorem Memory.read_writeBytes (m : Memory) (a : Nat) (bs : List Byte) (x : Nat)
    (h : a + bs.length ≤ Config.memSize) :
    Memory.read (Memory.writeBytes m a bs) x =
      if a ≤ x ∧ x < a + bs.length then bs.getD (x - a) 0 else Memory.read m x := by
  induction bs generalizing m a with
  | nil => simp [Memory.writeBytes]
  | cons b bs ih =>
    simp only [List.length_cons] at h
    rw [Memory.writeBytes, ih (Memory.write m a b) (a + 1) (by omega), Memory.read_write _ _ _ _ (by omega)]
    simp only [List.length_cons]
    rcases Nat.lt_trichotomy x a with hx | hx | hx
    · rw [if_neg (by omega), if_neg (by omega), if_neg (by omega)]
    · subst hx; rw [if_neg (by omega), if_pos rfl, if_pos (by omega)]; simp
    · by_cases h2 : x < a + 1 + bs.length
      · rw [if_pos (by omega), if_pos (by omega), show x - a = (x - (a + 1)) + 1 by omega]
        exact List.getD_cons_succ.symm
      · rw [if_neg (by omega), if_neg (by omega), if_neg (by omega)]

theorem Memory.read_writeBytes_outside (m : Memory) (a : Nat) (bs : List Byte) (x : Nat)
    (h : x < a ∨ a + bs.length ≤ x) : Memory.read (Memory.writeBytes m a bs) x = Memory.read m x := by
  induction bs generalizing m a with
  | nil => rfl
  | cons b bs ih =>
    simp only [List.length_cons] at h
    rw [Memory.writeBytes, ih (Memory.write m a b) (a + 1) (by omega), Memory.read_write_ne _ _ _ _ (by omega)]

/-! ## The canonical form -/

theorem Memory.wf_iff (m : Memory) : Memory.wf m = true ↔
    (m.Pairwise fun c d => c.1 < d.1) ∧ ∀ c ∈ m, c.1 < Config.memSize ∧ c.2 ≠ unlisted c.1 := by
  simp [Memory.wf]

theorem Memory.wf_nil : Memory.wf [] = true := rfl

theorem Memory.wf_erase (m : Memory) (a : Nat) (h : Memory.wf m = true) : Memory.wf (Memory.erase m a) = true := by
  rw [Memory.wf_iff] at h ⊢
  exact ⟨h.1.filter _, fun c hc => h.2 c ((Memory.mem_erase m a c).1 hc).1⟩

theorem Memory.mem_insert (m : Memory) (a : Nat) (b : Byte) (c : Host.Cell) :
    c ∈ Memory.insert m a b ↔ c = (a, b) ∨ c ∈ m := by
  induction m with
  | nil => simp [Memory.insert]
  | cons d m ih =>
    unfold Memory.insert
    split
    · simp
    · simp only [List.mem_cons, ih]; tauto

theorem Memory.wf_insert (m : Memory) (a : Nat) (b : Byte) (h : Memory.wf m = true) (hm : ∀ c ∈ m, c.1 ≠ a)
    (ha : a < Config.memSize) (hb : b ≠ unlisted a) : Memory.wf (Memory.insert m a b) = true := by
  rw [Memory.wf_iff] at h ⊢
  refine ⟨?_, fun c hc => ?_⟩
  · have hp := h.1
    clear h
    induction m with
    | nil => simp [Memory.insert]
    | cons d m ih =>
      have hd : d.1 ≠ a := hm d (by simp)
      rw [List.pairwise_cons] at hp
      unfold Memory.insert
      split
      case isTrue hlt =>
        refine List.pairwise_cons.2 ⟨fun c hc => ?_, List.pairwise_cons.2 hp⟩
        rcases List.mem_cons.1 hc with rfl | hc
        · exact hlt
        · exact Nat.lt_trans hlt (hp.1 c hc)
      case isFalse hlt =>
        refine List.pairwise_cons.2 ⟨fun c hc => ?_, ih (fun c hc => hm c (by simp [hc])) hp.2⟩
        rcases (Memory.mem_insert m a b c).1 hc with rfl | hc
        · simp only; omega
        · exact hp.1 c hc
  · rcases (Memory.mem_insert m a b c).1 hc with rfl | hc
    · exact ⟨ha, hb⟩
    · exact h.2 c hc

/-- A write keeps the canonical form. -/
theorem Memory.wf_write (m : Memory) (a : Nat) (b : Byte) (h : Memory.wf m = true) :
    Memory.wf (Memory.write m a b) = true := by
  unfold Memory.write
  split
  case isTrue ha =>
    split
    · exact Memory.wf_erase m a h
    case isFalse hb =>
      exact Memory.wf_insert _ a b (Memory.wf_erase m a h) (fun c hc => ((Memory.mem_erase m a c).1 hc).2) ha hb
  case isFalse => exact h

/-- A store of consecutive bytes keeps the canonical form. -/
theorem Memory.wf_writeBytes (m : Memory) (a : Nat) (bs : List Byte) (h : Memory.wf m = true) :
    Memory.wf (Memory.writeBytes m a bs) = true := by
  induction bs generalizing m a with
  | nil => exact h
  | cons b bs ih => exact ih _ _ (Memory.wf_write m a b h)

theorem Memory.read_ne_unlisted_of_mem (m : Memory) (h : Memory.wf m = true) (c : Host.Cell) (hc : c ∈ m) :
    Memory.read m c.1 = c.2 := by
  rw [Memory.wf_iff] at h
  obtain ⟨hp, -⟩ := h
  induction m with
  | nil => cases hc
  | cons d m ih =>
    rw [List.pairwise_cons] at hp
    rw [Memory.read_cons]
    rcases List.mem_cons.1 hc with rfl | hc
    · simp
    · rw [if_neg (Nat.ne_of_lt (hp.1 c hc))]
      exact ih hc hp.2

/-- Memories in the canonical form that read the same everywhere are the same data. -/
theorem Memory.eq_of_read_eq (m m' : Memory) (h : Memory.wf m = true) (h' : Memory.wf m' = true)
    (hr : ∀ x, Memory.read m x = Memory.read m' x) : m = m' := by
  have sub : ∀ n n' : Memory, Memory.wf n = true → Memory.wf n' = true →
      (∀ x, Memory.read n x = Memory.read n' x) → ∀ c ∈ n, c ∈ n' := by
    intro n n' hn hn' hrr c hc
    have e := Memory.read_ne_unlisted_of_mem n hn c hc
    by_contra hcn
    have hne : ∀ d ∈ n', d.1 ≠ c.1 := by
      intro d hd hdc
      have e' := Memory.read_ne_unlisted_of_mem n' hn' d hd
      rw [hdc, ← hrr, e] at e'
      exact hcn (by rw [show c = d from Prod.ext hdc.symm e']; exact hd)
    rw [hrr, Memory.read_of_not_mem n' c.1 hne] at e
    exact ((Memory.wf_iff n).1 hn |>.2 c hc).2 e.symm
  have nd : ∀ n : Memory, Memory.wf n = true → n.Pairwise (fun c d => c.1 < d.1) := fun n hn => ((Memory.wf_iff n).1 hn).1
  have perm : m.Perm m' := by
    rw [List.perm_ext_iff_of_nodup]
    · exact fun c => ⟨sub m m' h h' hr c, sub m' m h' h (fun x => (hr x).symm) c⟩
    · exact (nd m h).imp fun {c d} hlt e => Nat.ne_of_lt hlt (congrArg Prod.fst e)
    · exact (nd m' h').imp fun {c d} hlt e => Nat.ne_of_lt hlt (congrArg Prod.fst e)
  exact perm.eq_of_pairwise (fun a b _ _ hab hba => absurd (Nat.lt_trans hab hba) (Nat.lt_irrefl _)) (nd m h) (nd m' h')

end Sys2Proof.Machine
end

