-- ==== Sys2Proof/Laws/State.lean ====
section
/-! SUPPORT. One lemma per field per update of the state, so that no proof unfolds a record update. -/

namespace Sys2Proof.Machine

/-! ## setV -/

@[simp] theorem State.setV_v (s : State) (x : RegIdx) (b : Byte) : (s.setV x b).v = s.v.set x.toNat b x.isLt := rfl
@[simp] theorem State.setV_i (s : State) (x : RegIdx) (b : Byte) : (s.setV x b).i = s.i := rfl
@[simp] theorem State.setV_pc (s : State) (x : RegIdx) (b : Byte) : (s.setV x b).pc = s.pc := rfl
@[simp] theorem State.setV_sp (s : State) (x : RegIdx) (b : Byte) : (s.setV x b).sp = s.sp := rfl
@[simp] theorem State.setV_stack (s : State) (x : RegIdx) (b : Byte) : (s.setV x b).stack = s.stack := rfl
@[simp] theorem State.setV_dt (s : State) (x : RegIdx) (b : Byte) : (s.setV x b).dt = s.dt := rfl
@[simp] theorem State.setV_st (s : State) (x : RegIdx) (b : Byte) : (s.setV x b).st = s.st := rfl
@[simp] theorem State.setV_tc (s : State) (x : RegIdx) (b : Byte) : (s.setV x b).tc = s.tc := rfl
@[simp] theorem State.setV_keys (s : State) (x : RegIdx) (b : Byte) : (s.setV x b).keys = s.keys := rfl
@[simp] theorem State.setV_schip (s : State) (x : RegIdx) (b : Byte) : (s.setV x b).schip = s.schip := rfl
@[simp] theorem State.setV_mem (s : State) (x : RegIdx) (b : Byte) : (s.setV x b).mem = s.mem := rfl
@[simp] theorem State.setV_fault (s : State) (x : RegIdx) (b : Byte) : (s.setV x b).fault = s.fault := rfl
@[simp] theorem State.setV_draws (s : State) (x : RegIdx) (b : Byte) : (s.setV x b).draws = s.draws := rfl

/-! ## setI -/

@[simp] theorem State.setI_v (s : State) (a : Word) : (s.setI a).v = s.v := rfl
@[simp] theorem State.setI_i (s : State) (a : Word) : (s.setI a).i = a := rfl
@[simp] theorem State.setI_pc (s : State) (a : Word) : (s.setI a).pc = s.pc := rfl
@[simp] theorem State.setI_sp (s : State) (a : Word) : (s.setI a).sp = s.sp := rfl
@[simp] theorem State.setI_stack (s : State) (a : Word) : (s.setI a).stack = s.stack := rfl
@[simp] theorem State.setI_dt (s : State) (a : Word) : (s.setI a).dt = s.dt := rfl
@[simp] theorem State.setI_st (s : State) (a : Word) : (s.setI a).st = s.st := rfl
@[simp] theorem State.setI_tc (s : State) (a : Word) : (s.setI a).tc = s.tc := rfl
@[simp] theorem State.setI_keys (s : State) (a : Word) : (s.setI a).keys = s.keys := rfl
@[simp] theorem State.setI_schip (s : State) (a : Word) : (s.setI a).schip = s.schip := rfl
@[simp] theorem State.setI_mem (s : State) (a : Word) : (s.setI a).mem = s.mem := rfl
@[simp] theorem State.setI_fault (s : State) (a : Word) : (s.setI a).fault = s.fault := rfl
@[simp] theorem State.setI_draws (s : State) (a : Word) : (s.setI a).draws = s.draws := rfl

/-! ## setPc -/

@[simp] theorem State.setPc_v (s : State) (a : Word) : (s.setPc a).v = s.v := rfl
@[simp] theorem State.setPc_i (s : State) (a : Word) : (s.setPc a).i = s.i := rfl
@[simp] theorem State.setPc_pc (s : State) (a : Word) : (s.setPc a).pc = a := rfl
@[simp] theorem State.setPc_sp (s : State) (a : Word) : (s.setPc a).sp = s.sp := rfl
@[simp] theorem State.setPc_stack (s : State) (a : Word) : (s.setPc a).stack = s.stack := rfl
@[simp] theorem State.setPc_dt (s : State) (a : Word) : (s.setPc a).dt = s.dt := rfl
@[simp] theorem State.setPc_st (s : State) (a : Word) : (s.setPc a).st = s.st := rfl
@[simp] theorem State.setPc_tc (s : State) (a : Word) : (s.setPc a).tc = s.tc := rfl
@[simp] theorem State.setPc_keys (s : State) (a : Word) : (s.setPc a).keys = s.keys := rfl
@[simp] theorem State.setPc_schip (s : State) (a : Word) : (s.setPc a).schip = s.schip := rfl
@[simp] theorem State.setPc_mem (s : State) (a : Word) : (s.setPc a).mem = s.mem := rfl
@[simp] theorem State.setPc_fault (s : State) (a : Word) : (s.setPc a).fault = s.fault := rfl
@[simp] theorem State.setPc_draws (s : State) (a : Word) : (s.setPc a).draws = s.draws := rfl

/-! ## setDt -/

@[simp] theorem State.setDt_v (s : State) (b : Byte) : (s.setDt b).v = s.v := rfl
@[simp] theorem State.setDt_i (s : State) (b : Byte) : (s.setDt b).i = s.i := rfl
@[simp] theorem State.setDt_pc (s : State) (b : Byte) : (s.setDt b).pc = s.pc := rfl
@[simp] theorem State.setDt_sp (s : State) (b : Byte) : (s.setDt b).sp = s.sp := rfl
@[simp] theorem State.setDt_stack (s : State) (b : Byte) : (s.setDt b).stack = s.stack := rfl
@[simp] theorem State.setDt_dt (s : State) (b : Byte) : (s.setDt b).dt = b := rfl
@[simp] theorem State.setDt_st (s : State) (b : Byte) : (s.setDt b).st = s.st := rfl
@[simp] theorem State.setDt_tc (s : State) (b : Byte) : (s.setDt b).tc = s.tc := rfl
@[simp] theorem State.setDt_keys (s : State) (b : Byte) : (s.setDt b).keys = s.keys := rfl
@[simp] theorem State.setDt_schip (s : State) (b : Byte) : (s.setDt b).schip = s.schip := rfl
@[simp] theorem State.setDt_mem (s : State) (b : Byte) : (s.setDt b).mem = s.mem := rfl
@[simp] theorem State.setDt_fault (s : State) (b : Byte) : (s.setDt b).fault = s.fault := rfl
@[simp] theorem State.setDt_draws (s : State) (b : Byte) : (s.setDt b).draws = s.draws := rfl

/-! ## setSt -/

@[simp] theorem State.setSt_v (s : State) (b : Byte) : (s.setSt b).v = s.v := rfl
@[simp] theorem State.setSt_i (s : State) (b : Byte) : (s.setSt b).i = s.i := rfl
@[simp] theorem State.setSt_pc (s : State) (b : Byte) : (s.setSt b).pc = s.pc := rfl
@[simp] theorem State.setSt_sp (s : State) (b : Byte) : (s.setSt b).sp = s.sp := rfl
@[simp] theorem State.setSt_stack (s : State) (b : Byte) : (s.setSt b).stack = s.stack := rfl
@[simp] theorem State.setSt_dt (s : State) (b : Byte) : (s.setSt b).dt = s.dt := rfl
@[simp] theorem State.setSt_st (s : State) (b : Byte) : (s.setSt b).st = b := rfl
@[simp] theorem State.setSt_tc (s : State) (b : Byte) : (s.setSt b).tc = s.tc := rfl
@[simp] theorem State.setSt_keys (s : State) (b : Byte) : (s.setSt b).keys = s.keys := rfl
@[simp] theorem State.setSt_schip (s : State) (b : Byte) : (s.setSt b).schip = s.schip := rfl
@[simp] theorem State.setSt_mem (s : State) (b : Byte) : (s.setSt b).mem = s.mem := rfl
@[simp] theorem State.setSt_fault (s : State) (b : Byte) : (s.setSt b).fault = s.fault := rfl
@[simp] theorem State.setSt_draws (s : State) (b : Byte) : (s.setSt b).draws = s.draws := rfl

/-! ## setMem -/

@[simp] theorem State.setMem_v (s : State) (m : Memory) : (s.setMem m).v = s.v := rfl
@[simp] theorem State.setMem_i (s : State) (m : Memory) : (s.setMem m).i = s.i := rfl
@[simp] theorem State.setMem_pc (s : State) (m : Memory) : (s.setMem m).pc = s.pc := rfl
@[simp] theorem State.setMem_sp (s : State) (m : Memory) : (s.setMem m).sp = s.sp := rfl
@[simp] theorem State.setMem_stack (s : State) (m : Memory) : (s.setMem m).stack = s.stack := rfl
@[simp] theorem State.setMem_dt (s : State) (m : Memory) : (s.setMem m).dt = s.dt := rfl
@[simp] theorem State.setMem_st (s : State) (m : Memory) : (s.setMem m).st = s.st := rfl
@[simp] theorem State.setMem_tc (s : State) (m : Memory) : (s.setMem m).tc = s.tc := rfl
@[simp] theorem State.setMem_keys (s : State) (m : Memory) : (s.setMem m).keys = s.keys := rfl
@[simp] theorem State.setMem_schip (s : State) (m : Memory) : (s.setMem m).schip = s.schip := rfl
@[simp] theorem State.setMem_mem (s : State) (m : Memory) : (s.setMem m).mem = m := rfl
@[simp] theorem State.setMem_fault (s : State) (m : Memory) : (s.setMem m).fault = s.fault := rfl
@[simp] theorem State.setMem_draws (s : State) (m : Memory) : (s.setMem m).draws = s.draws := rfl

/-! ## advancePc -/

@[simp] theorem State.advancePc_v (s : State) : (s.advancePc).v = s.v := rfl
@[simp] theorem State.advancePc_i (s : State) : (s.advancePc).i = s.i := rfl
@[simp] theorem State.advancePc_pc (s : State) : (s.advancePc).pc = s.pc + 2 := rfl
@[simp] theorem State.advancePc_sp (s : State) : (s.advancePc).sp = s.sp := rfl
@[simp] theorem State.advancePc_stack (s : State) : (s.advancePc).stack = s.stack := rfl
@[simp] theorem State.advancePc_dt (s : State) : (s.advancePc).dt = s.dt := rfl
@[simp] theorem State.advancePc_st (s : State) : (s.advancePc).st = s.st := rfl
@[simp] theorem State.advancePc_tc (s : State) : (s.advancePc).tc = s.tc := rfl
@[simp] theorem State.advancePc_keys (s : State) : (s.advancePc).keys = s.keys := rfl
@[simp] theorem State.advancePc_schip (s : State) : (s.advancePc).schip = s.schip := rfl
@[simp] theorem State.advancePc_mem (s : State) : (s.advancePc).mem = s.mem := rfl
@[simp] theorem State.advancePc_fault (s : State) : (s.advancePc).fault = s.fault := rfl
@[simp] theorem State.advancePc_draws (s : State) : (s.advancePc).draws = s.draws := rfl

/-! ## raiseFault -/

@[simp] theorem State.raiseFault_v (s : State) (k : Fault) : (s.raiseFault k).v = s.v := rfl
@[simp] theorem State.raiseFault_i (s : State) (k : Fault) : (s.raiseFault k).i = s.i := rfl
@[simp] theorem State.raiseFault_pc (s : State) (k : Fault) : (s.raiseFault k).pc = s.pc := rfl
@[simp] theorem State.raiseFault_sp (s : State) (k : Fault) : (s.raiseFault k).sp = s.sp := rfl
@[simp] theorem State.raiseFault_stack (s : State) (k : Fault) : (s.raiseFault k).stack = s.stack := rfl
@[simp] theorem State.raiseFault_dt (s : State) (k : Fault) : (s.raiseFault k).dt = s.dt := rfl
@[simp] theorem State.raiseFault_st (s : State) (k : Fault) : (s.raiseFault k).st = s.st := rfl
@[simp] theorem State.raiseFault_tc (s : State) (k : Fault) : (s.raiseFault k).tc = s.tc := rfl
@[simp] theorem State.raiseFault_keys (s : State) (k : Fault) : (s.raiseFault k).keys = s.keys := rfl
@[simp] theorem State.raiseFault_schip (s : State) (k : Fault) : (s.raiseFault k).schip = s.schip := rfl
@[simp] theorem State.raiseFault_mem (s : State) (k : Fault) : (s.raiseFault k).mem = s.mem := rfl
@[simp] theorem State.raiseFault_fault (s : State) (k : Fault) : (s.raiseFault k).fault = some k := rfl
@[simp] theorem State.raiseFault_draws (s : State) (k : Fault) : (s.raiseFault k).draws = s.draws := rfl

/-! ## setKeys -/

@[simp] theorem State.setKeys_v (s : State) (ks : Vector Bool 16) : (s.setKeys ks).v = s.v := rfl
@[simp] theorem State.setKeys_i (s : State) (ks : Vector Bool 16) : (s.setKeys ks).i = s.i := rfl
@[simp] theorem State.setKeys_pc (s : State) (ks : Vector Bool 16) : (s.setKeys ks).pc = s.pc := rfl
@[simp] theorem State.setKeys_sp (s : State) (ks : Vector Bool 16) : (s.setKeys ks).sp = s.sp := rfl
@[simp] theorem State.setKeys_stack (s : State) (ks : Vector Bool 16) : (s.setKeys ks).stack = s.stack := rfl
@[simp] theorem State.setKeys_dt (s : State) (ks : Vector Bool 16) : (s.setKeys ks).dt = s.dt := rfl
@[simp] theorem State.setKeys_st (s : State) (ks : Vector Bool 16) : (s.setKeys ks).st = s.st := rfl
@[simp] theorem State.setKeys_tc (s : State) (ks : Vector Bool 16) : (s.setKeys ks).tc = s.tc := rfl
@[simp] theorem State.setKeys_keys (s : State) (ks : Vector Bool 16) : (s.setKeys ks).keys = ks := rfl
@[simp] theorem State.setKeys_schip (s : State) (ks : Vector Bool 16) : (s.setKeys ks).schip = s.schip := rfl
@[simp] theorem State.setKeys_mem (s : State) (ks : Vector Bool 16) : (s.setKeys ks).mem = s.mem := rfl
@[simp] theorem State.setKeys_fault (s : State) (ks : Vector Bool 16) : (s.setKeys ks).fault = s.fault := rfl
@[simp] theorem State.setKeys_draws (s : State) (ks : Vector Bool 16) : (s.setKeys ks).draws = s.draws := rfl

/-! ## setKey -/

@[simp] theorem State.setKey_v (s : State) (k : RegIdx) (down : Bool) : (s.setKey k down).v = s.v := rfl
@[simp] theorem State.setKey_i (s : State) (k : RegIdx) (down : Bool) : (s.setKey k down).i = s.i := rfl
@[simp] theorem State.setKey_pc (s : State) (k : RegIdx) (down : Bool) : (s.setKey k down).pc = s.pc := rfl
@[simp] theorem State.setKey_sp (s : State) (k : RegIdx) (down : Bool) : (s.setKey k down).sp = s.sp := rfl
@[simp] theorem State.setKey_stack (s : State) (k : RegIdx) (down : Bool) : (s.setKey k down).stack = s.stack := rfl
@[simp] theorem State.setKey_dt (s : State) (k : RegIdx) (down : Bool) : (s.setKey k down).dt = s.dt := rfl
@[simp] theorem State.setKey_st (s : State) (k : RegIdx) (down : Bool) : (s.setKey k down).st = s.st := rfl
@[simp] theorem State.setKey_tc (s : State) (k : RegIdx) (down : Bool) : (s.setKey k down).tc = s.tc := rfl
@[simp] theorem State.setKey_keys (s : State) (k : RegIdx) (down : Bool) : (s.setKey k down).keys = s.keys.set k.toNat down k.isLt := rfl
@[simp] theorem State.setKey_schip (s : State) (k : RegIdx) (down : Bool) : (s.setKey k down).schip = s.schip := rfl
@[simp] theorem State.setKey_mem (s : State) (k : RegIdx) (down : Bool) : (s.setKey k down).mem = s.mem := rfl
@[simp] theorem State.setKey_fault (s : State) (k : RegIdx) (down : Bool) : (s.setKey k down).fault = s.fault := rfl
@[simp] theorem State.setKey_draws (s : State) (k : RegIdx) (down : Bool) : (s.setKey k down).draws = s.draws := rfl

/-! ## loadFont -/

@[simp] theorem State.loadFont_v (s : State) (font : Vector Byte 80) : (s.loadFont font).v = s.v := rfl
@[simp] theorem State.loadFont_i (s : State) (font : Vector Byte 80) : (s.loadFont font).i = s.i := rfl
@[simp] theorem State.loadFont_pc (s : State) (font : Vector Byte 80) : (s.loadFont font).pc = s.pc := rfl
@[simp] theorem State.loadFont_sp (s : State) (font : Vector Byte 80) : (s.loadFont font).sp = s.sp := rfl
@[simp] theorem State.loadFont_stack (s : State) (font : Vector Byte 80) : (s.loadFont font).stack = s.stack := rfl
@[simp] theorem State.loadFont_dt (s : State) (font : Vector Byte 80) : (s.loadFont font).dt = s.dt := rfl
@[simp] theorem State.loadFont_st (s : State) (font : Vector Byte 80) : (s.loadFont font).st = s.st := rfl
@[simp] theorem State.loadFont_tc (s : State) (font : Vector Byte 80) : (s.loadFont font).tc = s.tc := rfl
@[simp] theorem State.loadFont_keys (s : State) (font : Vector Byte 80) : (s.loadFont font).keys = s.keys := rfl
@[simp] theorem State.loadFont_schip (s : State) (font : Vector Byte 80) : (s.loadFont font).schip = s.schip := rfl
@[simp] theorem State.loadFont_mem (s : State) (font : Vector Byte 80) : (s.loadFont font).mem = Memory.writeBytes s.mem 0 font.toList := rfl
@[simp] theorem State.loadFont_fault (s : State) (font : Vector Byte 80) : (s.loadFont font).fault = s.fault := rfl
@[simp] theorem State.loadFont_draws (s : State) (font : Vector Byte 80) : (s.loadFont font).draws = s.draws := rfl

/-! ## drawRandom -/

@[simp] theorem State.drawRandom_v (s : State) : s.drawRandom.2.v = s.v := rfl
@[simp] theorem State.drawRandom_i (s : State) : s.drawRandom.2.i = s.i := rfl
@[simp] theorem State.drawRandom_pc (s : State) : s.drawRandom.2.pc = s.pc := rfl
@[simp] theorem State.drawRandom_sp (s : State) : s.drawRandom.2.sp = s.sp := rfl
@[simp] theorem State.drawRandom_stack (s : State) : s.drawRandom.2.stack = s.stack := rfl
@[simp] theorem State.drawRandom_dt (s : State) : s.drawRandom.2.dt = s.dt := rfl
@[simp] theorem State.drawRandom_st (s : State) : s.drawRandom.2.st = s.st := rfl
@[simp] theorem State.drawRandom_tc (s : State) : s.drawRandom.2.tc = s.tc := rfl
@[simp] theorem State.drawRandom_keys (s : State) : s.drawRandom.2.keys = s.keys := rfl
@[simp] theorem State.drawRandom_schip (s : State) : s.drawRandom.2.schip = s.schip := rfl
@[simp] theorem State.drawRandom_mem (s : State) : s.drawRandom.2.mem = s.mem := rfl
@[simp] theorem State.drawRandom_fault (s : State) : s.drawRandom.2.fault = s.fault := rfl
@[simp] theorem State.drawRandom_draws (s : State) : s.drawRandom.2.draws = s.draws + 1 := rfl

/-! ## timerDividerStep and endOfTick -/

@[simp] theorem State.timerDividerStep_v (s : State) : s.timerDividerStep.v = s.v := by
  unfold State.timerDividerStep; split <;> rfl
@[simp] theorem State.timerDividerStep_i (s : State) : s.timerDividerStep.i = s.i := by
  unfold State.timerDividerStep; split <;> rfl
@[simp] theorem State.timerDividerStep_pc (s : State) : s.timerDividerStep.pc = s.pc := by
  unfold State.timerDividerStep; split <;> rfl
@[simp] theorem State.timerDividerStep_sp (s : State) : s.timerDividerStep.sp = s.sp := by
  unfold State.timerDividerStep; split <;> rfl
@[simp] theorem State.timerDividerStep_stack (s : State) : s.timerDividerStep.stack = s.stack := by
  unfold State.timerDividerStep; split <;> rfl
@[simp] theorem State.timerDividerStep_keys (s : State) : s.timerDividerStep.keys = s.keys := by
  unfold State.timerDividerStep; split <;> rfl
@[simp] theorem State.timerDividerStep_schip (s : State) : s.timerDividerStep.schip = s.schip := by
  unfold State.timerDividerStep; split <;> rfl
@[simp] theorem State.timerDividerStep_mem (s : State) : s.timerDividerStep.mem = s.mem := by
  unfold State.timerDividerStep; split <;> rfl
@[simp] theorem State.timerDividerStep_fault (s : State) : s.timerDividerStep.fault = s.fault := by
  unfold State.timerDividerStep; split <;> rfl
@[simp] theorem State.timerDividerStep_draws (s : State) : s.timerDividerStep.draws = s.draws := by
  unfold State.timerDividerStep; split <;> rfl
theorem State.timerDividerStep_dt (s : State) :
    s.timerDividerStep.dt = if s.tc = 0 then countDown s.dt else s.dt := by
  unfold State.timerDividerStep; split <;> rfl
theorem State.timerDividerStep_st (s : State) :
    s.timerDividerStep.st = if s.tc = 0 then countDown s.st else s.st := by
  unfold State.timerDividerStep; split <;> rfl
theorem State.timerDividerStep_tc (s : State) :
    s.timerDividerStep.tc = if s.tc = 0 then 9 else ⟨s.tc.val - 1, by have := s.tc.isLt; omega⟩ := by
  unfold State.timerDividerStep; split <;> rfl
@[simp] theorem State.endOfTick_v (s : State) : s.endOfTick.v = s.v := by
  simp [State.endOfTick]
@[simp] theorem State.endOfTick_i (s : State) : s.endOfTick.i = s.i := by
  simp [State.endOfTick]
@[simp] theorem State.endOfTick_pc (s : State) : s.endOfTick.pc = s.pc + 2 := by
  simp [State.endOfTick]
@[simp] theorem State.endOfTick_sp (s : State) : s.endOfTick.sp = s.sp := by
  simp [State.endOfTick]
@[simp] theorem State.endOfTick_stack (s : State) : s.endOfTick.stack = s.stack := by
  simp [State.endOfTick]
@[simp] theorem State.endOfTick_keys (s : State) : s.endOfTick.keys = s.keys := by
  simp [State.endOfTick]
@[simp] theorem State.endOfTick_schip (s : State) : s.endOfTick.schip = s.schip := by
  simp [State.endOfTick]
@[simp] theorem State.endOfTick_mem (s : State) : s.endOfTick.mem = s.mem := by
  simp [State.endOfTick]
@[simp] theorem State.endOfTick_fault (s : State) : s.endOfTick.fault = s.fault := by
  simp [State.endOfTick]
@[simp] theorem State.endOfTick_draws (s : State) : s.endOfTick.draws = s.draws := by
  simp [State.endOfTick]
theorem State.endOfTick_dt (s : State) :
    s.endOfTick.dt = if s.tc = 0 then countDown s.dt else s.dt :=
  State.timerDividerStep_dt s.advancePc
theorem State.endOfTick_st (s : State) :
    s.endOfTick.st = if s.tc = 0 then countDown s.st else s.st :=
  State.timerDividerStep_st s.advancePc
theorem State.endOfTick_tc (s : State) :
    s.endOfTick.tc = if s.tc = 0 then 9 else ⟨s.tc.val - 1, by have := s.tc.isLt; omega⟩ :=
  State.timerDividerStep_tc s.advancePc

/-! ## reset() -/

@[simp] theorem State.resetOp_v (s : State) (p : Config.Params) : (s.resetOp p).v = Vector.replicate 16 0 := rfl
@[simp] theorem State.resetOp_i (s : State) (p : Config.Params) : (s.resetOp p).i = 0 := rfl
@[simp] theorem State.resetOp_pc (s : State) (p : Config.Params) : (s.resetOp p).pc = 0x200 := rfl
@[simp] theorem State.resetOp_sp (s : State) (p : Config.Params) : (s.resetOp p).sp = 0 := rfl
@[simp] theorem State.resetOp_stack (s : State) (p : Config.Params) : (s.resetOp p).stack = Vector.replicate Config.stackDepth 0 := rfl
@[simp] theorem State.resetOp_dt (s : State) (p : Config.Params) : (s.resetOp p).dt = 0 := rfl
@[simp] theorem State.resetOp_st (s : State) (p : Config.Params) : (s.resetOp p).st = 0 := rfl
@[simp] theorem State.resetOp_tc (s : State) (p : Config.Params) : (s.resetOp p).tc = p.timerDividerReset := rfl
@[simp] theorem State.resetOp_keys (s : State) (p : Config.Params) : (s.resetOp p).keys = s.keys := rfl
@[simp] theorem State.resetOp_schip (s : State) (p : Config.Params) : (s.resetOp p).schip = s.schip := rfl
@[simp] theorem State.resetOp_mem (s : State) (p : Config.Params) : (s.resetOp p).mem = Memory.writeBytes [] 0 p.font.toList := rfl
@[simp] theorem State.resetOp_fault (s : State) (p : Config.Params) : (s.resetOp p).fault = none := rfl
@[simp] theorem State.resetOp_draws (s : State) (p : Config.Params) : (s.resetOp p).draws = s.draws := rfl

end Sys2Proof.Machine
end

