-- ==== Sys2Proof/Laws/Display.lean ====
section
/-! SUPPORT. What the blitter's operations do to memory: the display bytes alone, and the canonical form kept. -/

namespace Sys2Proof.Machine

theorem xorByte_wf (acc : Memory × Bool) (t : Nat) (p : Byte) (h : Memory.wf acc.1 = true) :
    Memory.wf (xorByte acc t p).1 = true := Memory.wf_write _ _ _ h

/-- Everything xorByte does to a read. -/
theorem read_xorByte (acc : Memory × Bool) (t : Nat) (p : Byte) (x : Nat) (ht : t < Config.memSize) :
    Memory.read (xorByte acc t p).1 x =
      if x = t then Memory.read acc.1 t ^^^ p else Memory.read acc.1 x := by
  simp only [xorByte, Memory.read_write _ _ _ _ ht]

theorem read_xorByte_ne (acc : Memory × Bool) (t : Nat) (p : Byte) (x : Nat) (hx : x ≠ t) :
    Memory.read (xorByte acc t p).1 x = Memory.read acc.1 x := Memory.read_write_ne _ _ _ _ hx

theorem wrapOrigin_bounds (x y : Byte) :
    (wrapOrigin x y).col ≤ 7 ∧ (wrapOrigin x y).shift ≤ 7 ∧ (wrapOrigin x y).y ≤ 31 := by
  simp only [wrapOrigin]; omega

theorem drawRow_wf (addr : Nat) (o : Origin) (acc : Memory × Bool) (i : Nat) (h : Memory.wf acc.1 = true) :
    Memory.wf (drawRow addr o acc i).1 = true := by
  unfold drawRow
  simp only
  split
  · exact xorByte_wf _ _ _ (xorByte_wf _ _ _ h)
  · exact xorByte_wf _ _ _ h

/-- A row writes at most two bytes: its display byte, and the next one when the sprite is shifted across into it. -/
theorem read_drawRow_ne (addr : Nat) (o : Origin) (acc : Memory × Bool) (i x : Nat)
    (h1 : x ≠ Config.screenBase + o.col + (o.y + i) * 8)
    (h2 : o.shift ≠ 0 → o.col < 7 → x ≠ Config.screenBase + o.col + (o.y + i) * 8 + 1) :
    Memory.read (drawRow addr o acc i).1 x = Memory.read acc.1 x := by
  unfold drawRow
  simp only
  split
  case isTrue h => rw [read_xorByte_ne _ _ _ _ (h2 h.1 h.2), read_xorByte_ne _ _ _ _ h1]
  case isFalse => rw [read_xorByte_ne _ _ _ _ h1]

/-- Everything a row does to memory (R191): its display byte and, when the sprite is shifted across into it, the next. -/
theorem read_drawRow (addr : Nat) (o : Origin) (acc : Memory × Bool) (i x : Nat) (hc : o.col ≤ 7) (hy : o.y + i ≤ 31) :
    Memory.read (drawRow addr o acc i).1 x =
      if x = Config.screenBase + o.col + (o.y + i) * 8 then
        Memory.read acc.1 x ^^^ Memory.read acc.1 (addr + i) >>> o.shift
      else if (o.shift ≠ 0 ∧ o.col < 7) ∧ x = Config.screenBase + o.col + (o.y + i) * 8 + 1 then
        Memory.read acc.1 x ^^^ Memory.read acc.1 (addr + i) <<< (8 - o.shift)
      else Memory.read acc.1 x := by
  unfold drawRow
  simp only
  have ht : Config.screenBase + o.col + (o.y + i) * 8 < Config.memSize := by
    simp only [Config.screenBase, Config.memSize]; omega
  have ht' : o.col < 7 → Config.screenBase + o.col + (o.y + i) * 8 + 1 < Config.memSize := fun h => by
    simp only [Config.screenBase, Config.memSize]; omega
  generalize Config.screenBase + o.col + (o.y + i) * 8 = t at ht ht' ⊢
  by_cases hs : o.shift ≠ 0 ∧ o.col < 7
  · rw [if_pos hs, read_xorByte _ _ _ _ (ht' hs.2), read_xorByte_ne _ _ _ (t + 1) (by omega),
      read_xorByte _ _ _ _ ht]
    rcases eq_or_ne x t with rfl | h1
    · simp
    · rcases eq_or_ne x (t + 1) with rfl | h2
      · simp [hs]
      · simp [h1, h2]
  · rw [if_neg hs, read_xorByte _ _ _ _ ht, if_neg (c := _ ∧ x = t + 1) fun h => hs h.1]
    rcases eq_or_ne x t with rfl | h1
    · simp
    · simp [h1]

/-- When a row meets a lit pixel (R195). -/
theorem drawRow_hit (addr : Nat) (o : Origin) (acc : Memory × Bool) (i : Nat) :
    (drawRow addr o acc i).2 = true ↔ acc.2 = true ∨
      Memory.read acc.1 (Config.screenBase + o.col + (o.y + i) * 8) &&&
        Memory.read acc.1 (addr + i) >>> o.shift ≠ 0 ∨
      (o.shift ≠ 0 ∧ o.col < 7) ∧ Memory.read acc.1 (Config.screenBase + o.col + (o.y + i) * 8 + 1) &&&
        Memory.read acc.1 (addr + i) <<< (8 - o.shift) ≠ 0 := by
  unfold drawRow
  simp only
  by_cases hs : o.shift ≠ 0 ∧ o.col < 7
  · rw [if_pos hs]
    simp only [xorByte, Memory.read_write_ne _ _ _ _ (Nat.succ_ne_self _), Bool.or_eq_true, bne_iff_ne, hs, true_and,
      or_assoc, ne_eq, not_false_eq_true]
  · rw [if_neg hs]
    simp only [xorByte, Bool.or_eq_true, bne_iff_ne, hs, false_and, or_false, ne_eq]

theorem drawRows_succ (addr : Nat) (o : Origin) (h : Nat) (m : Memory) :
    drawRows addr o (h + 1) m = drawRow addr o (drawRows addr o h m) h := by
  simp [drawRows, List.range_succ]

theorem drawRows_wf (addr : Nat) (o : Origin) (h : Nat) (m : Memory) (hm : Memory.wf m = true) :
    Memory.wf (drawRows addr o h m).1 = true := by
  induction h with
  | zero => exact hm
  | succ h ih => rw [drawRows_succ]; exact drawRow_wf _ _ _ _ ih

end Sys2Proof.Machine
end

