-- ==== Sys2Proof/Laws/Ops.lean ====
section
/-! SUPPORT. What each shared operation can do, said once: registers, stack, end of tick, fault entry, fetch, keys. -/

namespace Sys2Proof.Machine

/-! ## Registers -/

theorem State.getV_congr {s t : State} (h : s.v = t.v) (x : RegIdx) : s.getV x = t.getV x := by
  simp [State.getV, h]

/-- A register write: the register written holds the byte, every other register what it held. -/
theorem State.getV_setV (s : State) (x y : RegIdx) (b : Byte) :
    (s.setV x b).getV y = if y = x then b else s.getV y := by
  unfold State.getV State.setV
  simp only [Vector.getElem_set]
  by_cases h : y = x
  · simp [h]
  · rw [if_neg h, if_neg fun e => h (BitVec.eq_of_toNat_eq e.symm)]

@[simp] theorem State.getV_setV_self (s : State) (x : RegIdx) (b : Byte) : (s.setV x b).getV x = b := by
  rw [State.getV_setV, if_pos rfl]

theorem State.getV_setV_ne (s : State) (x y : RegIdx) (b : Byte) (h : y ≠ x) :
    (s.setV x b).getV y = s.getV y := by
  rw [State.getV_setV, if_neg h]

/-- The result and the flag: VF holds the flag, and the destination the result unless it is VF (R22). -/
theorem State.getV_setResultFlag (s : State) (x y : RegIdx) (r f : Byte) :
    (s.setResultFlag x r f).getV y = if y = vf then f else if y = x then r else s.getV y := by
  rw [State.setResultFlag, State.getV_setV, State.getV_setV]

@[simp] theorem State.getV_setI (s : State) (a : Word) (x : RegIdx) : (s.setI a).getV x = s.getV x := rfl
@[simp] theorem State.getV_setPc (s : State) (a : Word) (x : RegIdx) : (s.setPc a).getV x = s.getV x := rfl
@[simp] theorem State.getV_setDt (s : State) (b : Byte) (x : RegIdx) : (s.setDt b).getV x = s.getV x := rfl
@[simp] theorem State.getV_setSt (s : State) (b : Byte) (x : RegIdx) : (s.setSt b).getV x = s.getV x := rfl
@[simp] theorem State.getV_setMem (s : State) (m : Memory) (x : RegIdx) : (s.setMem m).getV x = s.getV x := rfl
@[simp] theorem State.getV_drawRandom (s : State) (x : RegIdx) : s.drawRandom.2.getV x = s.getV x := rfl
@[simp] theorem State.getV_advancePc (s : State) (x : RegIdx) : s.advancePc.getV x = s.getV x := rfl
@[simp] theorem State.getV_raiseFault (s : State) (k : Fault) (x : RegIdx) : (s.raiseFault k).getV x = s.getV x := rfl

@[simp] theorem State.getV_endOfTick (s : State) (x : RegIdx) : s.endOfTick.getV x = s.getV x :=
  State.getV_congr (State.endOfTick_v s) x

@[simp] theorem State.readMem_endOfTick (s : State) (a : Nat) : s.endOfTick.readMem a = s.readMem a := by
  simp [State.readMem]

/-- A load of registers k in `ks` changes those registers alone, each to the byte at I + k. -/
theorem getV_loadRegs (s0 : State) (ks : List RegIdx) (x : RegIdx) :
    (loadRegs s0 ks).getV x = if x ∈ ks then s0.readMem (s0.dataAddr x.toNat) else s0.getV x := by
  have key : ∀ (ks : List RegIdx) (s : State),
      (ks.foldl (fun s k => s.setV k (s0.readMem (s0.dataAddr k.toNat))) s).getV x =
        if x ∈ ks then s0.readMem (s0.dataAddr x.toNat) else s.getV x := by
    intro ks
    induction ks with
    | nil => intro s; simp
    | cons k ks ih =>
      intro s
      rw [List.foldl_cons, ih, State.getV_setV]
      by_cases hx : x = k
      · subst hx; simp
      · simp [hx]
  exact key ks s0

/-- A load of registers leaves every other field alone. -/
theorem loadRegs_rest (s0 : State) (ks : List RegIdx) :
    ∃ v, loadRegs s0 ks = { s0 with v := v } := by
  have key : ∀ (ks : List RegIdx) (s : State), (∃ v, s = { s0 with v := v }) →
      ∃ v, ks.foldl (fun s k => s.setV k (s0.readMem (s0.dataAddr k.toNat))) s = { s0 with v := v } := by
    intro ks
    induction ks with
    | nil => intro s h; exact h
    | cons k ks ih =>
      rintro s ⟨v, rfl⟩
      exact ih _ ⟨_, rfl⟩
  exact key ks s0 ⟨_, rfl⟩

theorem mem_regsUpTo (x y : RegIdx) : y ∈ regsUpTo x ↔ y.toNat ≤ x.toNat := by
  simp only [regsUpTo, List.mem_map, List.mem_range]
  constructor
  · rintro ⟨k, hk, rfl⟩
    have := x.isLt
    simp only [BitVec.toNat_ofNat]
    exact (Nat.mod_le _ _).trans (by omega)
  · intro h
    exact ⟨y.toNat, by omega, by simp⟩

/-! ## The stack -/

/-- Everything a push does (R103). -/
theorem State.push_cases (s : State) (a : Word) :
    (∃ h : s.sp.val < Config.stackDepth,
      s.push a = some { s with stack := s.stack.set s.sp.val a h, sp := ⟨s.sp.val + 1, Nat.succ_lt_succ h⟩ }) ∨
    (s.sp.val = Config.stackDepth ∧ s.push a = none) := by
  unfold State.push
  by_cases h : s.sp.val < Config.stackDepth
  · exact .inl ⟨h, by rw [dif_pos h]⟩
  · exact .inr ⟨by have := s.sp.isLt; omega, by rw [dif_neg h]⟩

/-- Everything a pop does (R104). -/
theorem State.pop_cases (s : State) :
    (∃ (_ : 0 < s.sp.val) (hlt : s.sp.val - 1 < Config.stackDepth),
      s.pop = some (s.stack[s.sp.val - 1], { s with sp := ⟨s.sp.val - 1, by omega⟩ })) ∨
    (s.sp.val = 0 ∧ s.pop = none) := by
  unfold State.pop
  by_cases h : 0 < s.sp.val
  · exact .inl ⟨h, by have := s.sp.isLt; omega, by rw [dif_pos h]⟩
  · exact .inr ⟨by omega, by rw [dif_neg h]⟩

/-! ## Ends of a tick -/

theorem finish_done (s0 s : State) : finish s0 (.done s) = .next s.endOfTick := rfl
theorem finish_wait (s0 : State) : finish s0 .wait = .next s0 := rfl
theorem finish_raise (s0 : State) (k : Fault) : finish s0 (.raise k) = .next (s0.raiseFault k) := rfl

/-- Every execute part ends in a next state: no meaning stops. -/
theorem finish_next (s0 : State) (r : Executed) : ∃ t, finish s0 r = .next t := by
  cases r with
  | done s => exact ⟨_, rfl⟩
  | wait => exact ⟨_, rfl⟩
  | raise k => exact ⟨_, rfl⟩

/-- Everything the rest of a tick can do (R100): the end of tick, nothing, or the fault mark alone. -/
theorem finish_cases {s0 t : State} {r : Executed} (h : finish s0 r = .next t) :
    (∃ s, r = .done s ∧ t = s.endOfTick) ∨ (r = .wait ∧ t = s0) ∨ ∃ k, r = .raise k ∧ t = s0.raiseFault k := by
  cases r with
  | done s => cases h; exact .inl ⟨s, rfl, rfl⟩
  | wait => cases h; exact .inr (.inl ⟨rfl, rfl⟩)
  | raise k => cases h; exact .inr (.inr ⟨k, rfl, rfl⟩)

theorem countDown_toNat (b : Byte) : (countDown b).toNat = b.toNat - 1 := by
  unfold countDown
  split
  case isTrue h => subst h; rfl
  case isFalse h =>
    have hb : b.toNat ≠ 0 := fun e => h (BitVec.eq_of_toNat_eq e)
    have := b.isLt
    rw [BitVec.toNat_sub]
    simp
    omega

/-! ## Fetch -/

theorem fetch_error (s : State) (h : 0xFFE < s.pc.toNat) : fetch s = .error .fetchOutOfRange := by
  rw [fetch, if_pos h]

theorem fetch_ok (s : State) (h : s.pc.toNat ≤ 0xFFE) :
    fetch s = .ok (wordOfBytes (s.readMem s.pc.toNat) (s.readMem (s.pc.toNat + 1))) := by
  rw [fetch, if_neg (by omega)]

/-! ## Keys -/

/-- Everything the lookup answers (R220): the lowest key that is down, or none when no key is. -/
theorem State.getKeyPressed_cases (s : State) :
    (∃ k, s.getKeyPressed = some k ∧ s.keyDown k = true ∧ ∀ j : RegIdx, j.toNat < k.toNat → s.keyDown j = false) ∨
    (s.getKeyPressed = none ∧ ∀ k, s.keyDown k = false) := by
  have all : ∀ k : RegIdx, k ∈ (List.range 16).map (BitVec.ofNat 4) := by decide
  have idx : ∀ (a : Nat) (ha : a < ((List.range 16).map (BitVec.ofNat 4)).length),
      (((List.range 16).map (BitVec.ofNat 4))[a]).toNat = a := by
    intro a ha
    simp at ha
    simp [Nat.mod_eq_of_lt ha]
  cases h : s.getKeyPressed with
  | none =>
    refine .inr ⟨rfl, fun k => ?_⟩
    have := List.find?_eq_none.1 h k (all k)
    simpa using this
  | some k =>
    refine .inl ⟨k, rfl, List.find?_some h, fun j hj => ?_⟩
    obtain ⟨-, a, ha, hak, hbefore⟩ := List.find?_eq_some_iff_getElem.1 h
    have hka : k.toNat = a := by rw [← hak]; exact idx a ha
    have hlen : j.toNat < ((List.range 16).map (BitVec.ofNat 4)).length := by simpa using j.isLt
    have hj' := hbefore j.toNat (by omega)
    have hjj : ((List.range 16).map (BitVec.ofNat 4))[j.toNat] = j :=
      BitVec.eq_of_toNat_eq (idx j.toNat hlen)
    rw [hjj] at hj'
    simpa using hj'

end Sys2Proof.Machine
end

