-- ==== Sys2Proof/Laws/Exec.lean ====
section
/-! SUPPORT. The branches of the meanings that have some, each said once, so that a proof cites the branch and does not
unfold the meaning. -/

namespace Sys2Proof.Machine

theorem State.dataAddr_eq (s : State) (k : Nat) : s.dataAddr k = s.i.toNat + k := rfl

theorem execRet_full (s : State) (h : 0 < s.sp.val) :
    ∃ hlt : s.sp.val - 1 < Config.stackDepth, execRet s = .next
      (State.setPc { s with sp := ⟨s.sp.val - 1, by omega⟩ } s.stack[s.sp.val - 1]).endOfTick := by
  rcases s.pop_cases with ⟨_, hlt, e⟩ | ⟨h0, -⟩
  · exact ⟨hlt, by rw [execRet, e]; rfl⟩
  · omega

theorem execRet_empty (s : State) (h : s.sp.val = 0) : execRet s = .next (s.raiseFault .stackUnderflow) := by
  rcases s.pop_cases with ⟨h0, -, -⟩ | ⟨-, e⟩
  · omega
  · rw [execRet, e]; rfl

theorem execCall_room (nnn : Addr12) (s : State) (h : s.sp.val < Config.stackDepth) :
    execCall nnn s = .next (State.setPc { s with
      stack := s.stack.set s.sp.val s.pc h
      sp := ⟨s.sp.val + 1, Nat.succ_lt_succ h⟩ } (jumpPc (zext16 nnn))).endOfTick := by
  rcases s.push_cases s.pc with ⟨_, e⟩ | ⟨h0, -⟩
  · rw [execCall, e]; rfl
  · omega

theorem execCall_full (nnn : Addr12) (s : State) (h : s.sp.val = Config.stackDepth) :
    execCall nnn s = .next (s.raiseFault .stackOverflow) := by
  rcases s.push_cases s.pc with ⟨h0, -⟩ | ⟨-, e⟩
  · omega
  · rw [execCall, e]; rfl

theorem execAddIVx_fits (x : RegIdx) (s : State) (h : s.i.toNat + (s.getV x).toNat ≤ 0xFFFF) :
    execAddIVx x s = .next (s.setI (BitVec.ofNat 16 (s.i.toNat + (s.getV x).toNat))).endOfTick := by
  simp only [execAddIVx]; rw [if_neg (by omega)]; rfl

theorem execAddIVx_over (x : RegIdx) (s : State) (h : 0xFFFF < s.i.toNat + (s.getV x).toNat) :
    execAddIVx x s = .next (s.raiseFault .indexOverflow) := by
  simp only [execAddIVx]; rw [if_pos h]; rfl

theorem execLdBVx_in (x : RegIdx) (s : State) (h : s.i.toNat + 2 ≤ 0xFFF) :
    execLdBVx x s = .next
      (s.setMem (Memory.writeBytes s.mem s.i.toNat (bcdDigits (s.getV x)))).endOfTick := by
  rw [execLdBVx, if_pos (by exact h)]; rfl

theorem execLdBVx_out (x : RegIdx) (s : State) (h : 0xFFF < s.i.toNat + 2) :
    execLdBVx x s = .next (s.raiseFault .memoryOutOfRange) := by
  rw [execLdBVx, if_neg (by exact Nat.not_le.2 h)]; rfl

theorem execLdMemVx_in (x : RegIdx) (s : State) (h : s.i.toNat + x.toNat ≤ 0xFFF) :
    execLdMemVx x s = .next ((s.setMem
      (Memory.writeBytes s.mem s.i.toNat ((regsUpTo x).map s.getV))).setI (s.indexPast x)).endOfTick := by
  rw [execLdMemVx, if_pos (by exact h)]; rfl

theorem execLdMemVx_out (x : RegIdx) (s : State) (h : 0xFFF < s.i.toNat + x.toNat) :
    execLdMemVx x s = .next (s.raiseFault .memoryOutOfRange) := by
  rw [execLdMemVx, if_neg (by exact Nat.not_le.2 h)]; rfl

theorem execLdVxMem_in (x : RegIdx) (s : State) (h : s.i.toNat + x.toNat ≤ 0xFFF) :
    execLdVxMem x s = .next ((loadRegs s (regsUpTo x)).setI (s.indexPast x)).endOfTick := by
  rw [execLdVxMem, if_pos (by exact h)]; rfl

theorem execLdVxMem_out (x : RegIdx) (s : State) (h : 0xFFF < s.i.toNat + x.toNat) :
    execLdVxMem x s = .next (s.raiseFault .memoryOutOfRange) := by
  rw [execLdVxMem, if_neg (by exact Nat.not_le.2 h)]; rfl

/-- I after a block transfer that was in range: past its last byte, with no wrap. -/
theorem State.indexPast_toNat (s : State) (x : RegIdx) (h : s.i.toNat + x.toNat ≤ 0xFFF) :
    (s.indexPast x).toNat = s.i.toNat + x.toNat + 1 := by
  have := x.isLt
  simp [State.indexPast]
  omega

theorem execLdVxK_down (x k : RegIdx) (s : State) (h : s.getKeyPressed = some k) :
    execLdVxK x s = .next (s.setV x (k.zeroExtend 8)).endOfTick := by
  rw [execLdVxK, h]; rfl

theorem execLdVxK_up (x : RegIdx) (s : State) (h : s.getKeyPressed = none) : execLdVxK x s = .next s := by
  rw [execLdVxK, h]; rfl

theorem draw_in (addr height : Nat) (x y : Byte) (s : State)
    (h : clipHeight (wrapOrigin x y).y height = 0 ∨ addr + clipHeight (wrapOrigin x y).y height - 1 ≤ 0xFFF) :
    draw addr x y height s = .done ((s.setMem
        (drawRows addr (wrapOrigin x y) (clipHeight (wrapOrigin x y).y height) s.mem).1).setV vf
        (flagByte (drawRows addr (wrapOrigin x y) (clipHeight (wrapOrigin x y).y height) s.mem).2)) := by
  simp only [draw]
  rw [if_neg (by rintro ⟨h1, h2⟩; rcases h with h | h <;> omega)]

theorem draw_out (addr height : Nat) (x y : Byte) (s : State)
    (h0 : 0 < clipHeight (wrapOrigin x y).y height)
    (h : 0xFFF < addr + clipHeight (wrapOrigin x y).y height - 1) :
    draw addr x y height s = .raise .memoryOutOfRange := by
  simp only [draw]
  rw [if_pos ⟨h0, Nat.not_le.2 h⟩]

theorem blankScreen_length : blankScreen.length = 256 := List.length_replicate

theorem blankScreen_getD (k : Nat) : blankScreen.getD k 0 = 0 := by
  unfold blankScreen
  rw [List.getD_eq_getElem?_getD, List.getElem?_replicate]
  split <;> rfl

theorem regsUpTo_length (x : RegIdx) : (regsUpTo x).length = x.toNat + 1 := by
  simp [regsUpTo]

theorem regsUpTo_getD (s : State) (x k : RegIdx) (h : k.toNat ≤ x.toNat) :
    ((regsUpTo x).map s.getV).getD k.toNat 0 = s.getV k := by
  simp [regsUpTo, List.getD_eq_getElem?_getD, show k.toNat < x.toNat + 1 by omega]

/-- Every meaning is an execute part and the end of its tick. -/
theorem exec_eq_finish (i : Instr) (s : State) : ∃ r, exec i s = finish s r := by
  cases i <;> simp only [
    exec, noOp, execCls, execRet, execJp, execCall, execSeImm, execSneImm, execSeReg, execLdImm, execAddImm,
    execLdReg, execOrReg, execAndReg, execXorReg, execAddReg, execSubReg, execShrReg, execSubnReg, execShlReg,
    execSneReg, execLdI, execJpV0, execRnd, execDrw, execSkp, execSknp, execLdVxDt, execLdVxK, execLdDtVx,
    execLdStVx, execAddIVx, execLdFVx, execLdBVx, execLdMemVx, execLdVxMem, execSys, execNop5, execNop8, execNop9,
    execNopE, execNopF]
  all_goals exact ⟨_, rfl⟩

/-- Every meaning answers a next state: exec never faults or refuses. -/
theorem exec_next (i : Instr) (s : State) : ∃ t, exec i s = .next t := by
  obtain ⟨r, h⟩ := exec_eq_finish i s
  rw [h]
  exact finish_next s r

/-! ## The step -/

/-- Everything a step can do (R100): it is taken from a state with no fault marked, and either marks the fetch fault
alone or is the tick of the decoded word. -/
theorem step_cases {s t : State} (h : step s = .next t) :
    s.fault = none ∧
      ((0xFFE < s.pc.toNat ∧ t = s.raiseFault .fetchOutOfRange) ∨
        (s.pc.toNat ≤ 0xFFE ∧
          exec (decode (wordOfBytes (s.readMem s.pc.toNat) (s.readMem (s.pc.toNat + 1)))) s = .next t)) := by
  unfold step at h
  cases hf : s.fault with
  | some k => simp [hf] at h
  | none =>
    refine ⟨rfl, ?_⟩
    rcases Nat.lt_or_ge 0xFFE s.pc.toNat with hp | hp
    · simp only [hf, fetch_error s hp] at h
      cases h
      exact .inl ⟨hp, rfl⟩
    · simp only [hf, fetch_ok s hp] at h
      exact .inr ⟨hp, h⟩

theorem step_faulted {s : State} {k : Fault} (h : s.fault = some k) : step s = .fault k := by
  unfold step; rw [h]

theorem step_fetch_error {s : State} (hf : s.fault = none) (h : 0xFFE < s.pc.toNat) :
    step s = .next (s.raiseFault .fetchOutOfRange) := by
  simp only [step, hf, fetch_error s h]

theorem step_fetch_ok {s : State} (hf : s.fault = none) (h : s.pc.toNat ≤ 0xFFE) :
    step s = exec (decode (wordOfBytes (s.readMem s.pc.toNat) (s.readMem (s.pc.toNat + 1)))) s := by
  simp only [step, hf, fetch_ok s h]

end Sys2Proof.Machine
end

