-- ==== Sys2Proof/Laws/PerInstr.lean ====
section
/-! SUPPORT. The family EncodesItsRow: the word of an instruction carries every fixed field and every operand field of the
instruction's row of spec/opcode_table.json at the row's bit positions. One lemma per constructor. -/

namespace Sys2Proof.Laws.EncodesItsRow

/-- The fields of an instruction's row of spec/opcode_table.json: lowest bit, width, and the value the word holds there,
from the high bits down. -/
def row : Instr → List (Nat × Nat × Nat)
  | .cls => [(0, 16, 0xE0)]
  | .ret => [(0, 16, 0xEE)]
  | .jp nnn => [(12, 4, 0x1), (0, 12, nnn.toNat)]
  | .call nnn => [(12, 4, 0x2), (0, 12, nnn.toNat)]
  | .seImm x kk => [(12, 4, 0x3), (8, 4, x.toNat), (0, 8, kk.toNat)]
  | .sneImm x kk => [(12, 4, 0x4), (8, 4, x.toNat), (0, 8, kk.toNat)]
  | .seReg x y => [(12, 4, 0x5), (8, 4, x.toNat), (4, 4, y.toNat), (0, 4, 0x0)]
  | .ldImm x kk => [(12, 4, 0x6), (8, 4, x.toNat), (0, 8, kk.toNat)]
  | .addImm x kk => [(12, 4, 0x7), (8, 4, x.toNat), (0, 8, kk.toNat)]
  | .ldReg x y => [(12, 4, 0x8), (8, 4, x.toNat), (4, 4, y.toNat), (0, 4, 0x0)]
  | .orReg x y => [(12, 4, 0x8), (8, 4, x.toNat), (4, 4, y.toNat), (0, 4, 0x1)]
  | .andReg x y => [(12, 4, 0x8), (8, 4, x.toNat), (4, 4, y.toNat), (0, 4, 0x2)]
  | .xorReg x y => [(12, 4, 0x8), (8, 4, x.toNat), (4, 4, y.toNat), (0, 4, 0x3)]
  | .addReg x y => [(12, 4, 0x8), (8, 4, x.toNat), (4, 4, y.toNat), (0, 4, 0x4)]
  | .subReg x y => [(12, 4, 0x8), (8, 4, x.toNat), (4, 4, y.toNat), (0, 4, 0x5)]
  | .shrReg x y => [(12, 4, 0x8), (8, 4, x.toNat), (4, 4, y.toNat), (0, 4, 0x6)]
  | .subnReg x y => [(12, 4, 0x8), (8, 4, x.toNat), (4, 4, y.toNat), (0, 4, 0x7)]
  | .shlReg x y => [(12, 4, 0x8), (8, 4, x.toNat), (4, 4, y.toNat), (0, 4, 0xE)]
  | .sneReg x y => [(12, 4, 0x9), (8, 4, x.toNat), (4, 4, y.toNat), (0, 4, 0x0)]
  | .ldI nnn => [(12, 4, 0xA), (0, 12, nnn.toNat)]
  | .jpV0 nnn => [(12, 4, 0xB), (0, 12, nnn.toNat)]
  | .rnd x kk => [(12, 4, 0xC), (8, 4, x.toNat), (0, 8, kk.toNat)]
  | .drw x y n => [(12, 4, 0xD), (8, 4, x.toNat), (4, 4, y.toNat), (0, 4, n.toNat)]
  | .skp x => [(12, 4, 0xE), (8, 4, x.toNat), (0, 8, 0x9E)]
  | .sknp x => [(12, 4, 0xE), (8, 4, x.toNat), (0, 8, 0xA1)]
  | .ldVxDt x => [(12, 4, 0xF), (8, 4, x.toNat), (0, 8, 0x7)]
  | .ldVxK x => [(12, 4, 0xF), (8, 4, x.toNat), (0, 8, 0xA)]
  | .ldDtVx x => [(12, 4, 0xF), (8, 4, x.toNat), (0, 8, 0x15)]
  | .ldStVx x => [(12, 4, 0xF), (8, 4, x.toNat), (0, 8, 0x18)]
  | .addIVx x => [(12, 4, 0xF), (8, 4, x.toNat), (0, 8, 0x1E)]
  | .ldFVx x => [(12, 4, 0xF), (8, 4, x.toNat), (0, 8, 0x29)]
  | .ldBVx x => [(12, 4, 0xF), (8, 4, x.toNat), (0, 8, 0x33)]
  | .ldMemVx x => [(12, 4, 0xF), (8, 4, x.toNat), (0, 8, 0x55)]
  | .ldVxMem x => [(12, 4, 0xF), (8, 4, x.toNat), (0, 8, 0x65)]
  | .sys nnn => [(12, 4, 0x0), (0, 12, nnn.toNat)]
  | .nop5 x y n => [(12, 4, 0x5), (8, 4, x.toNat), (4, 4, y.toNat), (0, 4, n.toNat)]
  | .nop8 x y n => [(12, 4, 0x8), (8, 4, x.toNat), (4, 4, y.toNat), (0, 4, n.toNat)]
  | .nop9 x y n => [(12, 4, 0x9), (8, 4, x.toNat), (4, 4, y.toNat), (0, 4, n.toNat)]
  | .nopE x kk => [(12, 4, 0xE), (8, 4, x.toNat), (0, 8, kk.toNat)]
  | .nopF x kk => [(12, 4, 0xF), (8, 4, x.toNat), (0, 8, kk.toNat)]

/-- Every field of `fs` stands in the word `w`. -/
def Holds (w : Word) (fs : List (Nat × Nat × Nat)) : Prop := ∀ f ∈ fs, w.toNat / 2 ^ f.1 % 2 ^ f.2.1 = f.2.2

/-- Every field of the row stands in the instruction's word. -/
def Statement (i : Instr) : Prop := Holds (encode i) (row i)

/-! ## The three shapes -/

theorem of_nnn (g : Nibble) (nnn : Addr12) : Holds (encNNN g nnn) [(12, 4, g.toNat), (0, 12, nnn.toNat)] := by
  have hg := g.isLt
  have hnnn := nnn.isLt
  simp only [Holds, encNNN_toNat, List.forall_mem_cons]
  exact ⟨by omega, by omega, by simp⟩

theorem of_xkk (g : Nibble) (x : RegIdx) (kk : Byte) :
    Holds (encXKK g x kk) [(12, 4, g.toNat), (8, 4, x.toNat), (0, 8, kk.toNat)] := by
  have hg := g.isLt
  have hx := x.isLt
  have hkk := kk.isLt
  simp only [Holds, encXKK_toNat, List.forall_mem_cons]
  exact ⟨by omega, by omega, by omega, by simp⟩

theorem of_xyn (g : Nibble) (x y : RegIdx) (n : Nibble) :
    Holds (encXYN g x y n) [(12, 4, g.toNat), (8, 4, x.toNat), (4, 4, y.toNat), (0, 4, n.toNat)] := by
  have hg := g.isLt
  have hx := x.isLt
  have hy := y.isLt
  have hn := n.isLt
  simp only [Holds, encXYN_toNat, List.forall_mem_cons]
  exact ⟨by omega, by omega, by omega, by omega, by simp⟩

/-! ## One lemma per instruction -/

theorem cls : Statement .cls := by
  unfold Statement Holds
  decide

theorem ret : Statement .ret := by
  unfold Statement Holds
  decide

theorem jp (nnn : Addr12) : Statement (.jp nnn) := of_nnn 0x1 nnn

theorem call (nnn : Addr12) : Statement (.call nnn) := of_nnn 0x2 nnn

theorem seImm (x : RegIdx) (kk : Byte) : Statement (.seImm x kk) := of_xkk 0x3 x kk

theorem sneImm (x : RegIdx) (kk : Byte) : Statement (.sneImm x kk) := of_xkk 0x4 x kk

theorem seReg (x y : RegIdx) : Statement (.seReg x y) := of_xyn 0x5 x y 0x0

theorem ldImm (x : RegIdx) (kk : Byte) : Statement (.ldImm x kk) := of_xkk 0x6 x kk

theorem addImm (x : RegIdx) (kk : Byte) : Statement (.addImm x kk) := of_xkk 0x7 x kk

theorem ldReg (x y : RegIdx) : Statement (.ldReg x y) := of_xyn 0x8 x y 0x0

theorem orReg (x y : RegIdx) : Statement (.orReg x y) := of_xyn 0x8 x y 0x1

theorem andReg (x y : RegIdx) : Statement (.andReg x y) := of_xyn 0x8 x y 0x2

theorem xorReg (x y : RegIdx) : Statement (.xorReg x y) := of_xyn 0x8 x y 0x3

theorem addReg (x y : RegIdx) : Statement (.addReg x y) := of_xyn 0x8 x y 0x4

theorem subReg (x y : RegIdx) : Statement (.subReg x y) := of_xyn 0x8 x y 0x5

theorem shrReg (x y : RegIdx) : Statement (.shrReg x y) := of_xyn 0x8 x y 0x6

theorem subnReg (x y : RegIdx) : Statement (.subnReg x y) := of_xyn 0x8 x y 0x7

theorem shlReg (x y : RegIdx) : Statement (.shlReg x y) := of_xyn 0x8 x y 0xE

theorem sneReg (x y : RegIdx) : Statement (.sneReg x y) := of_xyn 0x9 x y 0x0

theorem ldI (nnn : Addr12) : Statement (.ldI nnn) := of_nnn 0xA nnn

theorem jpV0 (nnn : Addr12) : Statement (.jpV0 nnn) := of_nnn 0xB nnn

theorem rnd (x : RegIdx) (kk : Byte) : Statement (.rnd x kk) := of_xkk 0xC x kk

theorem drw (x y : RegIdx) (n : Nibble) : Statement (.drw x y n) := of_xyn 0xD x y n

theorem skp (x : RegIdx) : Statement (.skp x) := of_xkk 0xE x 0x9E

theorem sknp (x : RegIdx) : Statement (.sknp x) := of_xkk 0xE x 0xA1

theorem ldVxDt (x : RegIdx) : Statement (.ldVxDt x) := of_xkk 0xF x 0x7

theorem ldVxK (x : RegIdx) : Statement (.ldVxK x) := of_xkk 0xF x 0xA

theorem ldDtVx (x : RegIdx) : Statement (.ldDtVx x) := of_xkk 0xF x 0x15

theorem ldStVx (x : RegIdx) : Statement (.ldStVx x) := of_xkk 0xF x 0x18

theorem addIVx (x : RegIdx) : Statement (.addIVx x) := of_xkk 0xF x 0x1E

theorem ldFVx (x : RegIdx) : Statement (.ldFVx x) := of_xkk 0xF x 0x29

theorem ldBVx (x : RegIdx) : Statement (.ldBVx x) := of_xkk 0xF x 0x33

theorem ldMemVx (x : RegIdx) : Statement (.ldMemVx x) := of_xkk 0xF x 0x55

theorem ldVxMem (x : RegIdx) : Statement (.ldVxMem x) := of_xkk 0xF x 0x65

theorem sys (nnn : Addr12) : Statement (.sys nnn) := of_nnn 0x0 nnn

theorem nop5 (x y : RegIdx) (n : Nibble) : Statement (.nop5 x y n) := of_xyn 0x5 x y n

theorem nop8 (x y : RegIdx) (n : Nibble) : Statement (.nop8 x y n) := of_xyn 0x8 x y n

theorem nop9 (x y : RegIdx) (n : Nibble) : Statement (.nop9 x y n) := of_xyn 0x9 x y n

theorem nopE (x : RegIdx) (kk : Byte) : Statement (.nopE x kk) := of_xkk 0xE x kk

theorem nopF (x : RegIdx) (kk : Byte) : Statement (.nopF x kk) := of_xkk 0xF x kk

end Sys2Proof.Laws.EncodesItsRow
end

