-- ==== Sys2Proof/Tests/Slice0.lean ====
section
/-! SUPPORT. Tests: the refusals of WellFormed, every constructor's decoding, steps whose expected results are the
vectors of spec/95_test_vectors.md (V numbers), and for each statement with hypotheses a state and operands that meet them. -/

namespace Sys2Proof.Tests

open Sys2Proof.Machine

/-! ## Well-formedness: one ill-formed term for each check -/

theorem test_wf_sys : (Instr.sys 0x0E0).wellFormed = false ∧ (Instr.sys 0x0EE).wellFormed = false := by decide
theorem test_wf_nop5 : (Instr.nop5 1 2 0).wellFormed = false := by decide
theorem test_wf_nop8 : (Instr.nop8 1 2 0xE).wellFormed = false ∧ (Instr.nop8 1 2 7).wellFormed = false := by decide
theorem test_wf_nop9 : (Instr.nop9 1 2 0).wellFormed = false := by decide
theorem test_wf_nopE : (Instr.nopE 1 0x9E).wellFormed = false ∧ (Instr.nopE 1 0xA1).wellFormed = false := by decide
theorem test_wf_nopF : (Instr.nopF 1 0x65).wellFormed = false := by decide
theorem test_wf_ok : (Instr.nop8 1 2 0xF).wellFormed = true ∧ (Instr.sys 0x1E0).wellFormed = true := by decide

/-! ## Decoding: a word of each row, bit by bit from R70 and R73 to R77 -/

theorem test_decode_cls : decode 0b0000_0000_1110_0000 = .cls := by decide
theorem test_decode_ret : decode 0b0000_0000_1110_1110 = .ret := by decide
theorem test_decode_jp : decode 0b0001_0010_0011_0100 = .jp 0x234 := by decide
theorem test_decode_call : decode 0b0010_0010_0001_0000 = .call 0x210 := by decide
theorem test_decode_seImm : decode 0b0011_0011_0001_0010 = .seImm 3 0x12 := by decide
theorem test_decode_sneImm : decode 0b0100_0011_0001_0010 = .sneImm 3 0x12 := by decide
theorem test_decode_seReg : decode 0b0101_0001_0010_0000 = .seReg 1 2 := by decide
theorem test_decode_ldImm : decode 0b0110_1100_0001_0111 = .ldImm 0xC 0x17 := by decide
theorem test_decode_addImm : decode 0b0111_0001_0000_0001 = .addImm 1 0x01 := by decide
theorem test_decode_ldReg : decode 0b1000_0001_0010_0000 = .ldReg 1 2 := by decide
theorem test_decode_orReg : decode 0b1000_0001_0010_0001 = .orReg 1 2 := by decide
theorem test_decode_andReg : decode 0b1000_0001_0010_0010 = .andReg 1 2 := by decide
theorem test_decode_xorReg : decode 0b1000_0001_0010_0011 = .xorReg 1 2 := by decide
theorem test_decode_addReg : decode 0b1000_1111_0001_0100 = .addReg 0xF 1 := by decide
theorem test_decode_subReg : decode 0b1000_0001_0010_0101 = .subReg 1 2 := by decide
theorem test_decode_shrReg : decode 0b1000_1111_0110_0110 = .shrReg 0xF 6 := by decide
theorem test_decode_subnReg : decode 0b1000_0001_0010_0111 = .subnReg 1 2 := by decide
theorem test_decode_shlReg : decode 0b1000_0001_1111_1110 = .shlReg 1 0xF := by decide
theorem test_decode_sneReg : decode 0b1001_0001_0010_0000 = .sneReg 1 2 := by decide
theorem test_decode_ldI : decode 0b1010_0001_0010_0011 = .ldI 0x123 := by decide
theorem test_decode_jpV0 : decode 0b1011_1111_0000_0001 = .jpV0 0xF01 := by decide
theorem test_decode_rnd : decode 0b1100_1010_1111_1110 = .rnd 0xA 0xFE := by decide
theorem test_decode_drw : decode 0b1101_0001_0010_0011 = .drw 1 2 3 := by decide
theorem test_decode_skp : decode 0b1110_0101_1001_1110 = .skp 5 := by decide
theorem test_decode_sknp : decode 0b1110_0101_1010_0001 = .sknp 5 := by decide
theorem test_decode_ldVxDt : decode 0b1111_0100_0000_0111 = .ldVxDt 4 := by decide
theorem test_decode_ldVxK : decode 0b1111_0010_0000_1010 = .ldVxK 2 := by decide
theorem test_decode_ldDtVx : decode 0b1111_0000_0001_0101 = .ldDtVx 0 := by decide
theorem test_decode_ldStVx : decode 0b1111_0000_0001_1000 = .ldStVx 0 := by decide
theorem test_decode_addIVx : decode 0b1111_0010_0001_1110 = .addIVx 2 := by decide
theorem test_decode_ldFVx : decode 0b1111_0001_0010_1001 = .ldFVx 1 := by decide
theorem test_decode_ldBVx : decode 0b1111_1010_0011_0011 = .ldBVx 0xA := by decide
theorem test_decode_ldMemVx : decode 0b1111_0010_0101_0101 = .ldMemVx 2 := by decide
theorem test_decode_ldVxMem : decode 0b1111_1111_0110_0101 = .ldVxMem 0xF := by decide
theorem test_decode_sys : decode 0b0000_0001_1110_0000 = .sys 0x1E0 := by decide
theorem test_decode_nop5 : decode 0b0101_0001_0010_0001 = .nop5 1 2 1 := by decide
theorem test_decode_nop8 : decode 0b1000_0001_0010_1101 = .nop8 1 2 0xD := by decide
theorem test_decode_nop9 : decode 0b1001_0001_0010_0001 = .nop9 1 2 1 := by decide
theorem test_decode_nopE : decode 0b1110_0001_1001_1111 = .nopE 1 0x9F := by decide
theorem test_decode_nopF : decode 0b1111_0001_0011_0000 = .nopF 1 0x30 := by decide

/-- Too few bytes are refused by name, and the rest of a longer list comes back. -/
theorem test_decode_bytes :
    decodeBytes [0x12] = .error .truncated ∧ decodeBytes [0x12, 0x34, 0x56] = .ok (.jp 0x234, [0x56]) := by
  decide

theorem test_decode_table_word : decodeTableWord 16 0x8124 = some (.addReg 1 2) := by decide

/-! ## Steps -/

/-- The state after reset with V1 and V2 set. -/
def regs12 (a b : Byte) : State := (State.reset.setV 1 a).setV 2 b

/-- `s` with I and some bytes at an address. -/
def withBytes (s : State) (i : Word) (a : Nat) (bs : List Byte) : State :=
  (s.setI i).setMem (Memory.writeBytes s.mem a bs)

/-- `s` with `n` stack entries in use, each `a`. -/
def withStack (s : State) (n : Fin 21) (a : Word) : State := { s with sp := n, stack := Vector.replicate 20 a }

/-- `s` with TC at `k`. -/
def withTc (s : State) (k : Fin 10) : State := { s with tc := k }

/-- One tick of the word `w` placed at PC: the state it leaves. -/
def after (s : State) (w : Nat) : State := (tick (s.withFetchWord 16 w)).2

/-- One tick of the word `w` placed at PC: what the host is told. -/
def told (s : State) (w : Nat) : TickResult := (tick (s.withFetchWord 16 w)).1

/-- Memory bytes at the addresses listed. -/
def bytesAt (s : State) (as : List Nat) : List Byte := as.map s.readMem

/-- V2. -/
theorem test_jp : (after State.reset 0x1000).pc = 0x000 ∧ (after State.reset 0x1000).tc = 8 := by decide

/-- V3. -/
theorem test_jp_odd : (after State.reset 0x1201).pc = 0x201 := by decide

/-- V6. -/
theorem test_call_last :
    let s := withStack (State.reset.setPc 0x204) 19 0
    (after s 0x2210).pc = 0x210 ∧ (after s 0x2210).sp = 20 ∧ (after s 0x2210).stack[19] = 0x204 := by decide

/-- V7. -/
theorem test_call_full :
    let s := withStack (State.reset.setPc 0x204) 20 0
    told s 0x2210 = .faulted .stackOverflow ∧ (after s 0x2210).pc = 0x204 := by decide

/-- V8. -/
theorem test_ret :
    let s := withStack (State.reset.setPc 0x212) 1 0x204
    (after s 0x00EE).pc = 0x206 ∧ (after s 0x00EE).sp = 0 ∧ (after s 0x00EE).stack[0] = 0x204 := by decide

/-- V9. -/
theorem test_ret_empty : told (State.reset.setPc 0x212) 0x00EE = .faulted .stackUnderflow := by decide

/-- V11. -/
theorem test_jpV0 : (after (State.reset.setV 0 0xFF) 0xBF01).pc = 0x1000 := by decide

/-- V20, V21. -/
theorem test_seImm :
    (after (State.reset.setV 3 0x12) 0x3312).pc = 0x204 ∧
    (after (State.reset.setV 3 0x13) 0x3312).pc = 0x202 := by decide

/-- V22, V23. -/
theorem test_sneImm :
    (after (State.reset.setV 3 0x12) 0x4312).pc = 0x202 ∧ (after State.reset 0x4312).pc = 0x204 := by decide

/-- V24 and R123. -/
theorem test_seReg : (after (regs12 7 7) 0x5120).pc = 0x204 ∧ (after (regs12 7 8) 0x5120).pc = 0x202 := by decide

/-- V26, V27. -/
theorem test_sneReg : (after (regs12 7 8) 0x9120).pc = 0x204 ∧ (after (regs12 7 7) 0x9120).pc = 0x202 := by decide

/-- V33. -/
theorem test_skip_at_end : (after ((State.reset.setPc 0xFFE).setV 0xF 0xFE) 0x3FFE).pc = 0x1002 := by decide

/-- V28, V29. -/
theorem test_skp :
    (after ((State.reset.setV 5 0x0A).setKey 0xA true) 0xE59E).pc = 0x204 ∧
    (after (State.reset.setV 5 0x0A) 0xE59E).pc = 0x202 := by decide

/-- V30. -/
theorem test_skp_high :
    (after (((State.reset.setV 5 0x0A).setKey 0xA true).setV 5 0x1A) 0xE59E).pc = 0x202 := by decide

/-- V31, V32. -/
theorem test_sknp :
    (after (State.reset.setV 5 0x0A) 0xE5A1).pc = 0x204 ∧
    (after ((State.reset.setV 5 0x20).setKeys (Vector.replicate 16 true)) 0xE5A1).pc = 0x204 := by decide

/-- V40, S7. -/
theorem test_ldImm : (after State.reset 0x6C17).getV 0xC = 0x17 ∧ (after State.reset 0x6C17).pc = 0x202 := by decide

/-- V41. -/
theorem test_addImm :
    let s := (State.reset.setV 1 0xFF).setV 0xF 5
    (after s 0x7101).getV 1 = 0 ∧ (after s 0x7101).getV 0xF = 5 := by decide

/-- V43. -/
theorem test_ldReg : (after (regs12 0 0x5A) 0x8120).getV 1 = 0x5A := by decide

/-- V44. -/
theorem test_orReg :
    let s := (regs12 0xF0 0x0F).setV 0xF 0x77
    (after s 0x8121).getV 1 = 0xFF ∧ (after s 0x8121).getV 0xF = 0x77 := by decide

/-- V45. -/
theorem test_andReg : (after (regs12 0xF0 0x3C) 0x8122).getV 1 = 0x30 := by decide

/-- V46. -/
theorem test_xorReg : (after (regs12 0xF0 0x3C) 0x8123).getV 1 = 0xCC := by decide

/-- V49. -/
theorem test_addReg :
    (after (regs12 0x7F 1) 0x8124).getV 1 = 0x80 ∧ (after (regs12 0x7F 1) 0x8124).getV 0xF = 0 := by decide

/-- V52. -/
theorem test_addReg_flag_wins : (after ((State.reset.setV 1 2).setV 0xF 0xFF) 0x8F14).getV 0xF = 1 := by decide

/-- V55. -/
theorem test_subReg :
    (after (regs12 4 5) 0x8125).getV 1 = 0xFF ∧ (after (regs12 4 5) 0x8125).getV 0xF = 0 := by decide

/-- V54. -/
theorem test_subReg_equal :
    (after (regs12 5 5) 0x8125).getV 1 = 0 ∧ (after (regs12 5 5) 0x8125).getV 0xF = 1 := by decide

/-- V59, V58. -/
theorem test_subnReg : (after (regs12 3 5) 0x8127).getV 1 = 2 ∧ (after (regs12 5 3) 0x8127).getV 0xF = 0 := by decide

/-- V61, standard mode. -/
theorem test_shrReg :
    (after (regs12 0 0x81) 0x8126).getV 1 = 0x40 ∧ (after (regs12 0 0x81) 0x8126).getV 0xF = 1 := by decide

/-- V62, schip mode. -/
theorem test_shrReg_schip :
    let s := { regs12 0 0x81 with schip := true }
    (after s 0x8126).getV 1 = 0 ∧ (after s 0x8126).getV 0xF = 0 := by decide

/-- V63, standard mode. -/
theorem test_shlReg :
    (after (regs12 1 0x81) 0x812E).getV 1 = 2 ∧ (after (regs12 1 0x81) 0x812E).getV 0xF = 1 := by decide

/-- V64, schip mode. -/
theorem test_shlReg_schip :
    let s := { regs12 1 0x81 with schip := true }
    (after s 0x812E).getV 1 = 2 ∧ (after s 0x812E).getV 0xF = 0 := by decide

/-- V70: for every byte of the source. -/
theorem test_rnd_masked :
    (after (State.reset.setV 1 9) 0xC100).getV 1 = 0 ∧ (after State.reset 0xC100).draws = 1 :=
  ⟨BitVec.and_zero, rfl⟩

/-- V80. -/
theorem test_ldI : (after State.reset 0xA123).i = 0x123 := by decide

/-- V81. -/
theorem test_addIVx : (after ((State.reset.setI 0xFFF0).setV 2 0x0F) 0xF21E).i = 0xFFFF := by decide

/-- V82. -/
theorem test_addIVx_over :
    let s := (State.reset.setI 0xFFF0).setV 2 0x10
    told s 0xF21E = .faulted .indexOverflow ∧ (after s 0xF21E).i = 0xFFF0 := by decide

/-- V85, V87. -/
theorem test_ldFVx :
    (after (State.reset.setV 1 0x0F) 0xF129).i = 0x04B ∧
    (after (State.reset.setV 1 0xFF) 0xF129).i = 0x4FB := by decide

/-- S10. -/
theorem test_ldBVx :
    bytesAt (after ((State.reset.setI 0x300).setV 0xA 0xFE) 0xFA33) [0x300, 0x301, 0x302] = [2, 5, 4] := by decide

/-- V95. -/
theorem test_ldBVx_out :
    let s := (State.reset.setI 0xFFE).setV 1 7
    told s 0xF133 = .faulted .memoryOutOfRange ∧ bytesAt (after s 0xF133) [0xFFE, 0xFFF] = [0, 0] := by decide

/-- V96. -/
theorem test_ldMemVx :
    let s := (regs12 2 3).setV 0 1
    bytesAt (after (s.setI 0x300) 0xF255) [0x300, 0x301, 0x302, 0x303] = [1, 2, 3, 0] ∧
    (after (s.setI 0x300) 0xF255).i = 0x303 := by decide

/-- V98. -/
theorem test_ldMemVx_out :
    let s := (regs12 2 3).setV 0 1
    told (s.setI 0xFFE) 0xF255 = .faulted .memoryOutOfRange ∧
    (after (s.setI 0xFFE) 0xF255).readMem 0xFFE = 0 := by decide

/-- V100. -/
theorem test_ldVxMem :
    (after State.reset 0xFF65).getV 0 = 0xF0 ∧ (after State.reset 0xFF65).getV 6 = 0x60 ∧
    (after State.reset 0xFF65).i = 0x010 := by decide

/-- V101. -/
theorem test_ldVxMem_out : told (State.reset.setI 0x1000) 0xF065 = .faulted .memoryOutOfRange := by decide

/-- S6 on three of its bytes. -/
theorem test_cls :
    (after (withBytes State.reset 0 0xF00 [1, 1]) 0x00E0).readMem 0xF00 = 0 ∧
    (after (withBytes State.reset 0 0xFFF [1]) 0x00E0).readMem 0xFFF = 0 := by decide +kernel

/-- V111, V120. -/
theorem test_drw :
    let s := withBytes (regs12 5 0) 0x300 0x300 [0xFF, 0x81, 0x3C]
    let t := withBytes (State.reset.setV 0xF 9) 0x300 0x300 [0x80]
    bytesAt (after s 0xD123) [0xF00, 0xF01, 0xF08, 0xF09, 0xF10, 0xF11] =
      [0x07, 0xF8, 0x04, 0x08, 0x01, 0xE0] ∧
    (after t 0xDFF1).readMem 0xF49 = 0x40 ∧ (after t 0xDFF1).getV 0xF = 0 := by decide

/-- V117. -/
theorem test_drw_reads_the_bitmap :
    let s := withBytes (regs12 8 0) 0xF00 0xF00 [0xAA, 0x0F]
    bytesAt (after s 0xD122) [0xF00, 0xF01, 0xF09] = [0xAA, 0xA5, 0xA5] ∧ (after s 0xD122).getV 0xF = 1 := by decide

/-- V131. -/
theorem test_ldVxDt :
    let s := withTc (State.reset.setDt 0x3C) 0
    (after s 0xF407).getV 4 = 0x3C ∧ (after s 0xF407).dt = 0x3B ∧ (after s 0xF407).tc = 9 := by decide

/-- V133. -/
theorem test_ldDtVx :
    let s := withTc (State.reset.setV 0 5) 0
    (after s 0xF015).dt = 4 ∧ (after s 0xF015).tc = 9 := by decide

/-- V135. -/
theorem test_ldStVx :
    let s := withTc (State.reset.setV 0 2) 5
    (after s 0xF018).st = 2 ∧ (after s 0xF018).tc = 4 ∧ (after s 0xF018).soundActive = true := by decide

/-- V136. -/
theorem test_ldVxK_waits :
    let s := withTc ((State.reset.setDt 5).setSt 5) 0
    told s 0xF20A = .waitingForKey ∧ after s 0xF20A =
      s.withFetchWord 16 0xF20A := by decide

/-- V137. -/
theorem test_ldVxK :
    let s := (State.reset.setKey 9 true).setKey 5 true
    (after s 0xF20A).getV 2 = 5 ∧ (after s 0xF20A).pc = 0x202 := by decide

/-- V152. -/
theorem test_sys :
    (after (regs12 7 7) 0x0AEE).pc = 0x202 ∧ (after (regs12 7 7) 0x0AEE).v = (regs12 7 7).v := by decide

/-- V153, V25. -/
theorem test_nop5 :
    (after (regs12 7 7) 0x5121).pc = 0x202 ∧ (after (regs12 7 7) 0x5121).v = (regs12 7 7).v := by decide

/-- V154, V68. -/
theorem test_nop8 :
    (after (regs12 7 7) 0x812F).pc = 0x202 ∧ (after (regs12 7 7) 0x812F).v = (regs12 7 7).v := by decide

/-- V155. -/
theorem test_nop9 :
    (after (regs12 7 7) 0x9121).pc = 0x202 ∧ (after (regs12 7 7) 0x9121).v = (regs12 7 7).v := by decide

/-- V156. -/
theorem test_nopE :
    (after (regs12 7 7) 0xE19F).pc = 0x202 ∧ (after (regs12 7 7) 0xE19F).v = (regs12 7 7).v := by decide

/-- V157. -/
theorem test_nopF :
    (after (regs12 7 7) 0xF130).pc = 0x202 ∧ (after (regs12 7 7) 0xF130).v = (regs12 7 7).v := by decide

/-- V14. -/
theorem test_fetch_out :
    let s := State.reset.setPc 0xFFF
    tick s = (.faulted .fetchOutOfRange, s.raiseFault .fetchOutOfRange) := by decide

/-- V15. -/
theorem test_faulted_again :
    let s := State.reset.raiseFault .stackUnderflow
    tick s = (.faulted .stackUnderflow, s) := by decide

/-- V160. -/
theorem test_reset_op :
    ((regs12 1 2).raiseFault .stackOverflow).resetOp defaultParams = State.reset := by decide +kernel

/-- V163. -/
theorem test_load_program : (State.reset.loadProgram (List.replicate 0xE01 0)).isOk = false := by decide +kernel

/-! ## Witnesses: for each statement with hypotheses, a state and operands that meet them, at the ends of their ranges

The statements over all states, words and operands, with no hypothesis, need none. -/

theorem witness_CallPushesItsAddressAndJumps :
    (withStack State.reset 19 0).sp.val < 20 ∧ (withStack State.reset 20 0).sp.val = 20 := by decide

theorem witness_ReturnGoesPastTheCall : 0 < (withStack State.reset 1 0).sp.val ∧ State.reset.sp.val = 0 := by decide

theorem witness_CallThenReturnResumesAfterCall : (withStack State.reset 19 0).sp.val < 20 := by decide

theorem witness_SkipsOnKeys_down :
    let s := (State.reset.setV 5 0xF).setKey 0xF true
    (∃ h : (s.getV 5).toNat < 16, s.keys[(s.getV 5).toNat] = true) := by decide

theorem witness_SkipsOnKeys_above_F :
    let s := (State.reset.setV 5 0x10).setKeys (Vector.replicate 16 true)
    ∀ h : (s.getV 5).toNat < 16, s.keys[(s.getV 5).toNat] = false := by decide

theorem witness_SkipsOnKeys_up :
    let s := State.reset.setV 5 0xF
    ∀ h : (s.getV 5).toNat < 16, s.keys[(s.getV 5).toNat] = false := by decide

theorem witness_AddSetsCarry :
    (0xE : RegIdx) ≠ 0xF ∧ (0x80 : Byte).toNat + (0x80 : Byte).toNat > 255 ∧
    ¬ (0x80 : Byte).toNat + (0x7F : Byte).toNat > 255 := by decide

theorem witness_SubtractionsSetNotBorrow :
    (0xE : RegIdx) ≠ 0xF ∧ (4 : Byte).toNat < (5 : Byte).toNat ∧ ¬ (5 : Byte).toNat < (5 : Byte).toNat := by decide

theorem witness_ShiftsSetTheBitShiftedOut :
    (0xE : RegIdx) ≠ 0xF ∧ State.reset.schip = false ∧ { State.reset with schip := true }.schip = true := by decide

theorem witness_AddToIndexFaultsAbove16Bits :
    let s := (State.reset.setI 0xFFF0).setV 2 0x0F
    let t := (State.reset.setI 0xFFF0).setV 2 0x10
    s.i.toNat + (s.getV 2).toNat ≤ 0xFFFF ∧ 0xFFFF < t.i.toNat + (t.getV 2).toNat := by decide

theorem witness_BcdStoresThreeDigits :
    (State.reset.setI 0xFFD).i.toNat + 2 ≤ 0xFFF ∧ 0xFFF < (State.reset.setI 0xFFE).i.toNat + 2 := by decide

theorem witness_BlockStoreWritesV0ToVx :
    (State.reset.setI 0xFF0).i.toNat + (0xF : RegIdx).toNat ≤ 0xFFF ∧
    0xFFF < (State.reset.setI 0xFF1).i.toNat + (0xF : RegIdx).toNat ∧
    (State.reset.setI 0xFFF).i.toNat + (0 : RegIdx).toNat ≤ 0xFFF := by decide

theorem witness_BlockLoadReadsV0ToVx :
    (State.reset.setI 0xFFF).i.toNat + (0 : RegIdx).toNat ≤ 0xFFF ∧
    0xFFF < (State.reset.setI 0x1000).i.toNat + (0 : RegIdx).toNat := by decide

theorem witness_StoreIsFetchedByTheNextTick :
    let s := (State.reset.setPc 0xFFC).setI 0xFFE
    s.fault = none ∧ s.pc.toNat ≤ 0xFFC ∧ s.i = s.pc + 2 := by decide

theorem witness_ClearScreenZeroesTheBitmap :
    0xF00 ≤ 0xFFF ∧ (0xEFF < 0xF00 ∨ 0xF00 + 0x100 ≤ 0xEFF) ∧ (0x1000 < 0xF00 ∨ 0xF00 + 0x100 ≤ 0x1000) := by decide

theorem witness_DrawCompletesAndKeepsTheRest :
    let s := State.reset.setI 0xFF1
    let t := State.reset.setI 0xFFFF
    let u := State.reset.setI 0xFF2
    s.i.toNat + drawnHeight s 2 0xF ≤ 0x1000 ∧ drawnHeight t 2 0 = 0 ∧ 0 < drawnHeight u 2 0xF ∧
    0x1000 < u.i.toNat + drawnHeight u 2 0xF := by decide

theorem witness_DrawGoesRowByRow :
    30 < 32 - (33 : Byte).toNat % 32 ∧ 0xFE1 + 30 ≤ 0xFFF ∧ 0 < min 1 (32 - (31 : Byte).toNat % 32) ∧
    0xFFF < 0x1000 + min 1 (32 - (31 : Byte).toNat % 32) - 1 := by decide

theorem witness_DrawGoesRowByRow_spills :
    rowSpills 49 ∧ ¬ rowSpills 48 ∧ ¬ rowSpills 57 := by unfold rowSpills; decide

theorem witness_DrawFlipsExactlyTheCoveredPixels :
    (State.reset.setI 0xEF1).i.toNat + (0xF : Nibble).toNat ≤ 0xF00 := by decide

theorem witness_DrawTwiceRestoresTheBitmap :
    let h := min 5 (32 - (30 : Byte).toNat % 32)
    (h = 0 ∨ 0xFFE + h ≤ 0x1000) ∧ ∀ r, r < h → ¬ drawWrites 0 30 h (0xFFE + r) := by
  refine ⟨by decide, ?_⟩
  rintro r hr ⟨r', hr', h | ⟨⟨h, -⟩, -⟩⟩
  · have e : rowByte 0 30 r' = 0xF00 + (30 + r') * 8 := rfl
    have : r < 2 := hr
    have : r' < 2 := hr'
    omega
  · exact absurd rfl h

theorem witness_HostReadsPixelsAndSound : 63 < 64 ∧ 31 < 32 ∧ pixelAddr 63 31 = 0xFFF ∧ 255 < 256 := by decide

theorem witness_TimerReadsAndWrites :
    (withTc State.reset 0).tc.val = 0 ∧ 0 < (withTc State.reset 9).tc.val := by decide

theorem witness_WaitForKeyStoresTheLowestOrFreezes_down :
    let s := State.reset.setKey 0xF true
    s.keys[(0xF : RegIdx).toNat] = true ∧
    ∀ j : RegIdx, j.toNat < (0xF : RegIdx).toNat → s.keys[j.toNat]'j.isLt = false := by decide

theorem witness_WaitForKeyStoresTheLowestOrFreezes_up : NoKeyDown State.reset := by unfold NoKeyDown; decide

theorem witness_NoOpWordsOnlyAdvance :
    (0x0E1 : Addr12) ≠ 0x0E0 ∧ (0x0E1 : Addr12) ≠ 0x0EE ∧ (1 : Nibble) ≠ 0 ∧ 7 < (8 : Nibble).toNat ∧
    (0xF : Nibble) ≠ 0xE ∧ (0x9F : Byte) ≠ 0x9E ∧
    (0x66 : Byte) ∉ [0x07, 0x0A, 0x15, 0x18, 0x1E, 0x29, 0x33, 0x55, 0x65] := by decide

theorem witness_StepRunsTheDecodedInstruction :
    let s := State.reset.setPc 0xFFE
    let t := State.reset.setPc 0xFFF
    s.fault = none ∧ s.pc.toNat ≤ 0xFFE ∧ 0xFFE < t.pc.toNat ∧
    decodeBytes [State.reset.readMem 0xFFE, State.reset.readMem 0xFFF] = .ok (.sys 0, []) := by decide

theorem witness_FaultEntryChangesOnlyTheMark :
    let s := State.reset.setPc 0xFFF
    s.fault = none ∧ step s = .next (s.raiseFault .fetchOutOfRange) ∧
    (s.raiseFault .fetchOutOfRange).fault = some .fetchOutOfRange := ⟨rfl, rfl, rfl⟩

theorem witness_FaultEntryChangesOnlyTheMark_after :
    (State.reset.raiseFault .stackUnderflow).fault = some .stackUnderflow := by decide

theorem witness_FaultedCoreNeverSteps :
    (State.reset.raiseFault .indexOverflow).fault = some .indexOverflow := by decide

/-- A state for each cause of the table of R241. -/
theorem witness_FaultsExactlyWhenTheTableSays :
    State.reset.fault = none ∧ FaultCause (State.reset.setPc 0xFFF) .fetchOutOfRange ∧
    FaultCause ((State.reset.setI 0xFFE).withFetchWord 16 0xF133) .memoryOutOfRange ∧
    FaultCause ((withStack State.reset 20 0).withFetchWord 16 0x2210) .stackOverflow ∧
    FaultCause (State.reset.withFetchWord 16 0x00EE) .stackUnderflow ∧
    FaultCause (((State.reset.setI 0xFFFF).setV 1 1).withFetchWord 16 0xF11E) .indexOverflow := by
  refine ⟨rfl, ?_, ⟨?_, .inl ⟨1, ?_, ?_⟩⟩, ⟨?_, ⟨0x210, ?_⟩, ?_⟩, ⟨?_, ?_, ?_⟩, ⟨?_, 1, ?_, ?_⟩⟩ <;>
    first | (unfold FaultCause; decide) | decide

theorem witness_TickResultTellsWhatHappened :
    let s := State.reset.withFetchWord 16 0xF20A
    s.fault = none ∧ s.pc.toNat ≤ 0xFFE ∧ (∃ x, s.instrAtPc = .ldVxK x) ∧ NoKeyDown s := by
  refine ⟨rfl, by decide, ⟨2, by decide⟩, by unfold NoKeyDown; decide⟩

theorem witness_EveryAdvancingTickStepsTheTimers :
    State.reset.fault = none ∧ (tick State.reset).1 = .advanced := by decide

theorem witness_SelfLoopOnlyRunsTheTimers :
    AtSelfLoop (State.reset.withFetchWord 16 0x1200) := ⟨rfl, 0x200, by decide, by decide, by decide⟩

theorem witness_NoTickChangesKeysOrSchip : ∃ t, step State.reset = .next t := ⟨_, rfl⟩

theorem witness_OnlyListedRegistersAreWritten : ∃ t, step (State.reset.withFetchWord 16 0x8124) = .next t := ⟨_, rfl⟩

theorem witness_OnlyCallAndReturnTouchTheStack :
    (∃ t, step State.reset = .next t) ∧ State.reset.instrAtPc = .sys 0 := ⟨⟨_, rfl⟩, by decide⟩

theorem witness_OnlyFiveInstructionsChangeI :
    (∃ t, step State.reset = .next t) ∧ State.reset.instrAtPc = .sys 0 := ⟨⟨_, rfl⟩, by decide⟩

theorem witness_OnlyFourInstructionsChangeMemory :
    let s := State.reset.withFetchWord 16 0xD121
    (∃ t, step s = .next t) ∧ s.instrAtPc = .drw 1 2 1 := ⟨⟨_, rfl⟩, by decide⟩

theorem witness_OnlyFourInstructionsChangeMemory_none :
    (∃ t, step State.reset = .next t) ∧ State.reset.instrAtPc = .sys 0 := ⟨⟨_, rfl⟩, by decide⟩

theorem witness_OnlyRandomDraws :
    let s := State.reset.withFetchWord 16 0xC10F
    (∃ t, step s = .next t) ∧ s.pc.toNat ≤ 0xFFE ∧ s.instrAtPc = .rnd 1 0x0F := ⟨⟨_, rfl⟩, by decide, by decide⟩

theorem witness_SchipMattersOnlyToShifts :
    (∀ x y, Instr.addReg 1 2 ≠ .shrReg x y) ∧
    ∀ x y, Instr.addReg 1 2 ≠ .shlReg x y := ⟨fun _ _ => nofun, fun _ _ => nofun⟩

theorem witness_KeysMatterOnlyToKeyInstructions :
    ∀ x, Instr.nopE 1 0x9F ≠ .skp x ∧ Instr.nopE 1 0x9F ≠ .sknp x ∧
    Instr.nopE 1 0x9F ≠ .ldVxK x := fun _ => ⟨nofun, nofun, nofun⟩

theorem witness_DecodeOfEncodeIsTheInstruction :
    (Instr.nopF 0xF 0x66).wellFormed = true ∧ (Instr.sys 0x0EF).wellFormed = true := by decide

theorem witness_ResetLeavesTheTable : 0x4F < 0x50 ∧ 0x50 ≤ 0xFFF ∧ 19 < 20 := by decide

theorem witness_LoadProgramFillsFromTheEntryPoint :
    (List.replicate 0xE00 (7 : Byte)).length ≤ 0xE00 ∧ 0xE00 < (List.replicate 0xE01 (7 : Byte)).length :=
  ⟨List.length_replicate.le, by rw [List.length_replicate]; decide⟩

theorem witness_StepKeepsTheInvariant :
    Inv State.reset ∧ ∃ t, step State.reset = .next t := ⟨⟨by decide, by decide, by decide⟩, ⟨_, rfl⟩⟩

theorem witness_HostActionsKeepTheInvariant : Inv State.reset := ⟨by decide, by decide, by decide⟩

theorem witness_EncodesItsRow : Laws.EncodesItsRow.Statement (.drw 1 2 3) := Laws.EncodesItsRow.drw 1 2 3

end Sys2Proof.Tests
end

section
/-! What an execute part can do (R23, R26, R28, R100): the updates an instruction may make, the end of the tick it
runs in, and what each of the two keeps. -/

namespace Sys2Proof.Machine

/-! ## The updates of an execute part -/

/-- The instructions that write I (R26, R280). -/
def writesI (i : Instr) : Prop :=
  (∃ nnn, i = .ldI nnn) ∨ ∃ x, i = .addIVx x ∨ i = .ldFVx x ∨ i = .ldMemVx x ∨ i = .ldVxMem x

/-- The instructions that write memory (R50, R54). -/
def writesMem (i : Instr) : Prop :=
  i = .cls ∨ (∃ x y n, i = .drw x y n) ∨ ∃ x, i = .ldBVx x ∨ i = .ldMemVx x

/-- The values the execute part writes to PC, each 2 below the next fetch address (R101, R102, R104, R120). -/
inductive PcWritten (s : State) : Word → Prop
  | skip : PcWritten s (s.pc + 2)
  | jump {a : Word} (h : a.toNat ≤ 0x10FE) : PcWritten s (jumpPc a)
  | ret {j : Nat} (h : j < Config.stackDepth) : PcWritten s s.stack[j]

/-- `EffectOf i s u`: `u` is `s` after updates that the execute part of `i` may make, each with its guard. -/
inductive EffectOf (i : Instr) (s : State) : State → Prop
  | start : EffectOf i s s
  | setV {u : State} {x : RegIdx} {b : Byte} (hu : EffectOf i s u) (hx : x ∈ writtenRegs i) : EffectOf i s (u.setV x b)
  | setI {u : State} {a : Word} (hu : EffectOf i s u) (hi : writesI i) : EffectOf i s (u.setI a)
  | setPc {u : State} {a : Word} (hu : EffectOf i s u) (ha : PcWritten s a) : EffectOf i s (u.setPc a)
  | setDt {u : State} {x : RegIdx} (hu : EffectOf i s u) (hi : i = .ldDtVx x) : EffectOf i s (u.setDt (s.getV x))
  | setSt {u : State} {x : RegIdx} (hu : EffectOf i s u) (hi : i = .ldStVx x) : EffectOf i s (u.setSt (s.getV x))
  | setMem {u : State} {m : Memory} (hu : EffectOf i s u) (hi : writesMem i)
      (hm : Memory.wf u.mem = true → Memory.wf m = true) : EffectOf i s (u.setMem m)
  | push {u : State} {nnn : Addr12} {j : Nat} {n : Fin (Config.stackDepth + 1)} (hu : EffectOf i s u)
      (hi : i = .call nnn) (hj : j < Config.stackDepth) :
      EffectOf i s { u with stack := u.stack.set j s.pc hj, sp := n }
  | pop {u : State} {n : Fin (Config.stackDepth + 1)} (hu : EffectOf i s u) (hi : i = .ret) :
      EffectOf i s { u with sp := n }
  | draw {u : State} {x : RegIdx} {kk : Byte} (hu : EffectOf i s u) (hi : i = .rnd x kk) :
      EffectOf i s u.drawRandom.2

namespace EffectOf

variable {i : Instr} {s u : State}

/-- No update touches the keys, the schip flag, the fault mark or TC. -/
theorem untouched (h : EffectOf i s u) :
    u.keys = s.keys ∧ u.schip = s.schip ∧ u.fault = s.fault ∧ u.tc = s.tc := by
  induction h with
  | start => exact ⟨rfl, rfl, rfl, rfl⟩
  | _ => assumption

theorem regs (h : EffectOf i s u) : RegsKeptExcept (writtenRegs i) s u := by
  intro r hr
  induction h with
  | start => rfl
  | setV _ hx ih => rw [State.getV_setV_ne _ _ _ _ (ne_of_mem_of_not_mem hx hr).symm, ih]
  | _ => assumption

theorem i_eq (h : EffectOf i s u) (hi : ¬ writesI i) : u.i = s.i := by
  induction h with
  | setI _ h => exact absurd h hi
  | start => rfl
  | _ => assumption

theorem stack (h : EffectOf i s u) (hi : ∀ nnn, i ≠ .call nnn) : u.stack = s.stack := by
  induction h with
  | push _ h => exact absurd h (hi _)
  | start => rfl
  | _ => assumption

theorem sp (h : EffectOf i s u) (hi : ∀ nnn, i ≠ .call nnn) (hr : i ≠ .ret) : u.sp = s.sp := by
  induction h with
  | push _ h => exact absurd h (hi _)
  | pop _ h => exact absurd h hr
  | start => rfl
  | _ => assumption

theorem memWf (h : EffectOf i s u) (hs : Memory.wf s.mem = true) : Memory.wf u.mem = true := by
  induction h with
  | setMem _ _ hm ih => exact hm ih
  | start => exact hs
  | _ => assumption

/-- The only addresses stored on the stack are those instructions are fetched from (R28). -/
theorem stackRange (h : EffectOf i s u) (hpc : s.pc.toNat ≤ 0xFFE)
    (hs : ∀ (j : Nat) (h : j < Config.stackDepth), s.stack[j].toNat ≤ 0xFFE) :
    ∀ (j : Nat) (h : j < Config.stackDepth), u.stack[j].toNat ≤ 0xFFE := by
  induction h with
  | push _ _ _ ih =>
    intro k hk
    rw [Vector.getElem_set]
    split
    · exact hpc
    · exact ih k hk
  | start => exact hs
  | _ => assumption

theorem pc (h : EffectOf i s u) : u.pc = s.pc ∨ PcWritten s u.pc := by
  induction h with
  | setPc _ ha => exact .inr ha
  | start => exact .inl rfl
  | _ => assumption

end EffectOf

/-- The PC the common advance leaves is in the range of R101. -/
theorem PcWritten.advanced_le {s : State} {a : Word} (h : PcWritten s a) (hpc : s.pc.toNat ≤ 0xFFE)
    (hs : ∀ (j : Nat) (h : j < Config.stackDepth), s.stack[j].toNat ≤ 0xFFE) : (a + 2).toNat ≤ 0x10FE := by
  cases h with
  | skip => bv_omega
  | jump h => simpa [jumpPc] using h
  | ret hj => have := hs _ hj; bv_omega

/-! ## The ends of a tick -/

/-- `ExecEnds i s t`: the tick that runs `i` from `s` leaves `t` in one of the three ways of R100, a wait only in Fx0A
with every key up (R214). -/
inductive ExecEnds (i : Instr) (s : State) : State → Prop
  | advance {u : State} (hu : EffectOf i s u) : ExecEnds i s u.endOfTick
  | wait {x : RegIdx} (hi : i = .ldVxK x) (hk : NoKeyDown s) : ExecEnds i s s
  | fault (k : Fault) : ExecEnds i s (s.raiseFault k)

section Branches

variable {i : Instr} {s : State}

theorem EffectOf.setResultFlag {x : RegIdx} {r f : Byte} (hx : writtenRegs i = [x, vf]) :
    EffectOf i s (s.setResultFlag x r f) :=
  .setV (.setV .start (by simp [hx])) (by simp [hx])

theorem EffectOf.skip {c : Bool} : EffectOf i s (if c then s.advancePc else s) := by
  cases c with
  | true => exact .setPc .start .skip
  | false => exact .start

theorem EffectOf.loadRegs {ks : List RegIdx} (h : ks ⊆ writtenRegs i) : EffectOf i s (loadRegs s ks) := by
  have key : ∀ ks : List RegIdx, ks ⊆ writtenRegs i → ∀ u, EffectOf i s u →
      EffectOf i s (ks.foldl (fun u k => u.setV k (s.readMem (s.dataAddr k.toNat))) u) := by
    intro ks
    induction ks with
    | nil => intro _ u hu; exact hu
    | cons k ks ih =>
      intro hks u hu
      obtain ⟨hk, hks⟩ := List.cons_subset.1 hks
      exact ih hks _ (.setV hu hk)
  exact key ks h s .start

end Branches

theorem zext16_le (nnn : Addr12) : (zext16 nnn).toNat ≤ 0xFFF := by
  have := nnn.isLt
  simp only [zext16]
  bv_omega

theorem jpV0Target_le (nnn : Addr12) (b : Byte) : (zext16 nnn + b.zeroExtend 16).toNat ≤ 0x10FE := by
  have := nnn.isLt
  have := b.isLt
  simp only [zext16]
  bv_omega

theorem execRet_ends (s : State) : ∃ t, exec .ret s = .next t ∧ ExecEnds .ret s t := by
  rcases Nat.eq_zero_or_pos s.sp.val with h | h
  · exact ⟨_, execRet_empty s h, .fault _⟩
  · obtain ⟨hlt, e⟩ := execRet_full s h
    exact ⟨_, e, .advance (.setPc (.pop .start rfl) (.ret hlt))⟩

theorem execCall_ends (nnn : Addr12) (s : State) : ∃ t, exec (.call nnn) s = .next t ∧ ExecEnds (.call nnn) s t := by
  rcases s.push_cases s.pc with ⟨h, -⟩ | ⟨h, -⟩
  · exact ⟨_, execCall_room nnn s h,
      .advance (.setPc (.push .start rfl h) (.jump ((zext16_le nnn).trans (by decide))))⟩
  · exact ⟨_, execCall_full nnn s h, .fault _⟩

theorem execAddIVx_ends (x : RegIdx) (s : State) : ∃ t, exec (.addIVx x) s = .next t ∧ ExecEnds (.addIVx x) s t := by
  rcases Nat.lt_or_ge 0xFFFF (s.i.toNat + (s.getV x).toNat) with h | h
  · exact ⟨_, execAddIVx_over x s h, .fault _⟩
  · exact ⟨_, execAddIVx_fits x s h, .advance (.setI .start (.inr ⟨x, .inl rfl⟩))⟩

theorem execLdBVx_ends (x : RegIdx) (s : State) : ∃ t, exec (.ldBVx x) s = .next t ∧ ExecEnds (.ldBVx x) s t := by
  rcases Nat.lt_or_ge 0xFFF (s.i.toNat + 2) with h | h
  · exact ⟨_, execLdBVx_out x s h, .fault _⟩
  · exact ⟨_, execLdBVx_in x s h,
      .advance (.setMem .start (.inr (.inr ⟨x, .inl rfl⟩)) (Memory.wf_writeBytes _ _ _))⟩

theorem execLdMemVx_ends (x : RegIdx) (s : State) :
    ∃ t, exec (.ldMemVx x) s = .next t ∧ ExecEnds (.ldMemVx x) s t := by
  rcases Nat.lt_or_ge 0xFFF (s.i.toNat + x.toNat) with h | h
  · exact ⟨_, execLdMemVx_out x s h, .fault _⟩
  · exact ⟨_, execLdMemVx_in x s h,
      .advance (.setI (.setMem .start (.inr (.inr ⟨x, .inr rfl⟩)) (Memory.wf_writeBytes _ _ _))
        (.inr ⟨x, .inr (.inr (.inl rfl))⟩))⟩

theorem execLdVxMem_ends (x : RegIdx) (s : State) :
    ∃ t, exec (.ldVxMem x) s = .next t ∧ ExecEnds (.ldVxMem x) s t := by
  rcases Nat.lt_or_ge 0xFFF (s.i.toNat + x.toNat) with h | h
  · exact ⟨_, execLdVxMem_out x s h, .fault _⟩
  · exact ⟨_, execLdVxMem_in x s h,
      .advance (.setI (.loadRegs fun _ h => h) (.inr ⟨x, .inr (.inr (.inr rfl))⟩))⟩

theorem execLdVxK_ends (x : RegIdx) (s : State) : ∃ t, exec (.ldVxK x) s = .next t ∧ ExecEnds (.ldVxK x) s t := by
  rcases s.getKeyPressed_cases with ⟨k, h, -⟩ | ⟨h, hk⟩
  · exact ⟨_, execLdVxK_down x k s h, .advance (.setV .start (.head _))⟩
  · exact ⟨_, execLdVxK_up x s h, .wait rfl hk⟩

theorem execDrw_ends (x y : RegIdx) (n : Nibble) (s : State) :
    ∃ t, exec (.drw x y n) s = .next t ∧ ExecEnds (.drw x y n) s t := by
  change ∃ t, finish s (draw _ _ _ _ _) = .next t ∧ _
  simp only [draw]
  split
  · exact ⟨_, rfl, .fault _⟩
  · exact ⟨_, rfl, .advance (.setV (.setMem .start (.inr (.inl ⟨x, y, n, rfl⟩)) (drawRows_wf _ _ _ _)) (.head _))⟩

/-- Everything the tick of an instruction can do. -/
theorem exec_ends (i : Instr) (s : State) : ∃ t, exec i s = .next t ∧ ExecEnds i s t := by
  cases i
  case sys | nop5 | nop8 | nop9 | nopE | nopF => exact ⟨_, rfl, .advance .start⟩
  case seImm | sneImm | seReg | sneReg | skp | sknp => exact ⟨_, rfl, .advance .skip⟩
  case ldImm | addImm | ldReg | orReg | andReg | xorReg | ldVxDt => exact ⟨_, rfl, .advance (.setV .start (.head _))⟩
  case addReg | subReg | shrReg | subnReg | shlReg => exact ⟨_, rfl, .advance (.setResultFlag rfl)⟩
  case rnd => exact ⟨_, rfl, .advance (.setV (.draw .start rfl) (.head _))⟩
  case ldI nnn => exact ⟨_, rfl, .advance (.setI .start (.inl ⟨nnn, rfl⟩))⟩
  case ldFVx x => exact ⟨_, rfl, .advance (.setI .start (.inr ⟨x, .inr (.inl rfl)⟩))⟩
  case ldDtVx => exact ⟨_, rfl, .advance (.setDt .start rfl)⟩
  case ldStVx => exact ⟨_, rfl, .advance (.setSt .start rfl)⟩
  case jp nnn => exact ⟨_, rfl, .advance (.setPc .start (.jump ((zext16_le nnn).trans (by decide))))⟩
  case jpV0 nnn => exact ⟨_, rfl, .advance (.setPc .start (.jump (jpV0Target_le nnn _)))⟩
  case cls => exact ⟨_, rfl, .advance (.setMem .start (.inl rfl) (Memory.wf_writeBytes _ _ _))⟩
  case ret => exact execRet_ends s
  case call nnn => exact execCall_ends nnn s
  case addIVx x => exact execAddIVx_ends x s
  case ldBVx x => exact execLdBVx_ends x s
  case ldMemVx x => exact execLdMemVx_ends x s
  case ldVxMem x => exact execLdVxMem_ends x s
  case ldVxK x => exact execLdVxK_ends x s
  case drw x y n => exact execDrw_ends x y n s

/-- Everything a step can do: the fetch fault, or a tick of the instruction at PC. -/
theorem step_ends {s t : State} (h : step s = .next t) :
    t = s.raiseFault .fetchOutOfRange ∨ (s.pc.toNat ≤ 0xFFE ∧ ExecEnds s.instrAtPc s t) := by
  obtain ⟨-, ⟨-, ht⟩ | ⟨hpc, he⟩⟩ := step_cases h
  · exact .inl ht
  · obtain ⟨t', he', ht⟩ := exec_ends s.instrAtPc s
    cases he.symm.trans he'
    exact .inr ⟨hpc, ht⟩

theorem step_execEnds {s t : State} (h : step s = .next t) : ExecEnds s.instrAtPc s t := by
  rcases step_ends h with rfl | ⟨-, ht⟩
  · exact .fault _
  · exact ht

/-! ## The statements on what a tick keeps -/

theorem inv_raiseFault {s : State} (h : Inv s) (k : Fault) : Inv (s.raiseFault k) :=
  ⟨h.memory, h.pcRange, h.stackRange⟩

theorem inv_endOfTick {i : Instr} {s u : State} (h : Inv s) (hpc : s.pc.toNat ≤ 0xFFE) (hu : EffectOf i s u) :
    Inv u.endOfTick where
  memory := by simpa using hu.memWf h.memory
  pcRange := by
    rw [State.endOfTick_pc]
    rcases hu.pc with e | e
    · rw [e]; bv_omega
    · exact e.advanced_le hpc h.stackRange
  stackRange := by simpa using hu.stackRange hpc h.stackRange

/-- Settles O55: the tick ends in one of the three ways of `ExecEnds`, and each keeps the invariant. -/
theorem stepKeepsTheInvariant : Obligations.StepKeepsTheInvariant := by
  intro s t hs h
  rcases step_ends h with rfl | ⟨hpc, ht⟩
  · exact inv_raiseFault hs _
  · cases ht with
    | advance hu => exact inv_endOfTick hs hpc hu
    | wait => exact hs
    | fault k => exact inv_raiseFault hs k

/-- Settles O41: no update of an execute part touches the keys or the schip flag. -/
theorem noTickChangesKeysOrSchip : Obligations.NoTickChangesKeysOrSchip := by
  intro s t h
  cases step_execEnds h with
  | advance hu =>
    obtain ⟨hkeys, hschip, -, -⟩ := hu.untouched
    exact ⟨by simpa using hkeys, by simpa using hschip⟩
  | wait => exact ⟨rfl, rfl⟩
  | fault => exact ⟨rfl, rfl⟩

/-- Settles O42: a register update carries its register's place in `writtenRegs`. -/
theorem onlyListedRegistersAreWritten : Obligations.OnlyListedRegistersAreWritten := by
  intro s t h r hr
  cases step_execEnds h with
  | advance hu => simpa using hu.regs r hr
  | wait => rfl
  | fault => rfl

/-- Settles O43: only the updates of CALL write a stack entry, and only those of CALL and RET write SP. -/
theorem onlyCallAndReturnTouchTheStack : Obligations.OnlyCallAndReturnTouchTheStack := by
  intro s t h hcall
  cases step_execEnds h with
  | advance hu => exact ⟨by simpa using hu.stack hcall, fun hret => by simpa using hu.sp hcall hret⟩
  | wait => exact ⟨rfl, fun _ => rfl⟩
  | fault => exact ⟨rfl, fun _ => rfl⟩

/-- Settles O44: an update of I is one of an instruction of `writesI`. -/
theorem onlyFiveInstructionsChangeI : Obligations.OnlyFiveInstructionsChangeI := by
  intro s t h hldI hx
  have hi : ¬ writesI s.instrAtPc := by
    rintro (⟨nnn, e⟩ | ⟨x, e⟩)
    · exact hldI nnn e
    · have := hx x
      tauto
  cases step_execEnds h with
  | advance hu => simpa using hu.i_eq hi
  | wait => rfl
  | fault => rfl

/-! ## The result of a tick -/

/-- TC moves in every tick that advances (R216). -/
theorem State.endOfTick_tc_ne (s : State) : s.endOfTick.tc ≠ s.tc := by
  rw [State.endOfTick_tc]
  split
  case isTrue h => rw [h]; decide
  case isFalse h =>
    have h0 : s.tc.val ≠ 0 := fun e => h (Fin.ext e)
    exact Fin.ne_of_val_ne (show s.tc.val - 1 ≠ s.tc.val by omega)

theorem step_eq_exec {s : State} (hf : s.fault = none) (hpc : s.pc.toNat ≤ 0xFFE) : step s = exec s.instrAtPc s :=
  step_fetch_ok hf hpc

theorem step_next {s : State} (hf : s.fault = none) : ∃ t, step s = .next t := by
  rcases Nat.lt_or_ge 0xFFE s.pc.toNat with h | h
  · exact ⟨_, step_fetch_error hf h⟩
  · rw [step_eq_exec hf h]
    exact exec_next _ s

theorem step_wait {s : State} {x : RegIdx} (hf : s.fault = none) (hpc : s.pc.toNat ≤ 0xFFE)
    (hi : s.instrAtPc = .ldVxK x) (hk : NoKeyDown s) : step s = .next s := by
  have hnone : s.getKeyPressed = none := by
    rcases s.getKeyPressed_cases with ⟨k, -, hd, -⟩ | ⟨h, -⟩
    · exact absurd hd (by simpa [State.keyDown] using hk k)
    · exact h
  rw [step_eq_exec hf hpc, hi]
  exact execLdVxK_up x s hnone

theorem tick_eq {s t : State} (h : step s = .next t) : tick s = (resultOf s t, t) := by
  rw [tick, h]

theorem resultOf_waiting (s t : State) : resultOf s t = .waitingForKey ↔ t.fault = none ∧ t = s := by
  unfold resultOf
  cases t.fault with
  | some k => simp
  | none => simp

theorem resultOf_faulted (s t : State) (k : Fault) : resultOf s t = .faulted k ↔ t.fault = some k := by
  unfold resultOf
  cases t.fault with
  | some k => simp
  | none =>
    simp only [reduceCtorEq, iff_false]
    split <;> simp

/-- Of the ends of a tick only the wait leaves an unfaulted state as it was. -/
theorem ExecEnds.wait_of_eq {i : Instr} {s t : State} (h : ExecEnds i s t) (hf : s.fault = none) (e : t = s) :
    (∃ x, i = .ldVxK x) ∧ NoKeyDown s := by
  cases h with
  | advance hu =>
    obtain ⟨-, -, -, htc⟩ := hu.untouched
    exact absurd ((congrArg State.tc e).trans htc.symm) (State.endOfTick_tc_ne _)
  | wait hi hk => exact ⟨⟨_, hi⟩, hk⟩
  | fault k => exact absurd ((congrArg State.fault e).trans hf) (Option.some_ne_none k)

theorem step_self {s : State} (hf : s.fault = none) (h : step s = .next s) :
    s.pc.toNat ≤ 0xFFE ∧ (∃ x, s.instrAtPc = .ldVxK x) ∧ NoKeyDown s := by
  rcases step_ends h with e | ⟨hpc, ht⟩
  · exact absurd ((congrArg State.fault e).symm.trans hf) (Option.some_ne_none _)
  · exact ⟨hpc, ht.wait_of_eq hf rfl⟩

/-- Settles O38: the result is read off the two states, and only a wait leaves them equal with no fault marked. -/
theorem tickResultTellsWhatHappened : Obligations.TickResultTellsWhatHappened := by
  intro s hf
  obtain ⟨t, ht⟩ := step_next hf
  rw [tick_eq ht]
  refine ⟨⟨fun h => ?_, ?_⟩, fun h => ((resultOf_waiting s t).1 h).2, resultOf_faulted s t⟩
  · obtain ⟨-, rfl⟩ := (resultOf_waiting s t).1 h
    exact step_self hf ht
  · rintro ⟨hpc, ⟨x, hi⟩, hk⟩
    cases ht.symm.trans (step_wait hf hpc hi hk)
    exact (resultOf_waiting s s).2 ⟨hf, rfl⟩

/-! ## Reset -/

theorem defaultFontBytes_length : defaultFontBytes.length = 80 := rfl

theorem defaultParams_font : defaultParams.font.toList = defaultFontBytes := by
  refine List.ext_getElem (Vector.length_toList.trans defaultFontBytes_length.symm) fun k h h' => ?_
  simp [defaultParams, h']

/-- Loading the default font over the reset contents lists no byte: each equals what an unlisted address reads as. -/
theorem resetOp_default_mem (s : State) : (s.resetOp defaultParams).mem = [] := by
  rw [State.resetOp_mem, defaultParams_font]
  refine Memory.eq_of_read_eq _ _ (Memory.wf_writeBytes _ _ _ Memory.wf_nil) Memory.wf_nil fun x => ?_
  rw [Memory.read_writeBytes _ _ _ _ (by decide)]
  split
  · rfl
  · rfl

theorem inv_reset : Inv State.reset where
  memory := Memory.wf_nil
  pcRange := by decide
  stackRange j hj := by simp [State.reset]

theorem inv_resetOp (p : Config.Params) (s : State) : Inv (s.resetOp p) where
  memory := Memory.wf_writeBytes _ _ _ Memory.wf_nil
  pcRange := inv_reset.pcRange
  stackRange := inv_reset.stackRange

/-- reset() changes of the reset state only what the parameters say: TC and memory. -/
theorem reset_resetOp (p : Config.Params) : State.reset.resetOp p =
    State.setMem { State.reset with tc := p.timerDividerReset } (State.reset.resetOp p).mem := rfl

theorem resetOp_default : State.reset.resetOp defaultParams = State.reset := by
  rw [reset_resetOp, resetOp_default_mem]
  rfl

/-- Settles O57: the default font lists nothing in memory, and any font is stored by writes that keep its form. -/
theorem resetMeetsTheInvariant : Obligations.ResetMeetsTheInvariant :=
  ⟨inv_reset, resetOp_default, inv_resetOp⟩

end Sys2Proof.Machine
end

section
/-! Memory as fetches and ticks see it (spec/20_memory.md): the word at PC, the bytes a block store leaves, and which
addresses an instruction may change. -/

namespace Sys2Proof.Machine

/-! ## The fetched word (R51) -/

theorem eq_wordOfBytes {w : Word} {hi lo : Byte} (h : w.toNat = hi.toNat * 256 + lo.toNat) : w = wordOfBytes hi lo :=
  BitVec.eq_of_toNat_eq (h.trans (wordOfBytes_toNat hi lo).symm)

/-- The step runs the word whose high byte is at PC and whose low byte is at PC + 1. -/
theorem step_eq_exec_word {s : State} {w : Word} (hf : s.fault = none) (hpc : s.pc.toNat ≤ 0xFFE)
    (hw : w.toNat = (s.readMem s.pc.toNat).toNat * 256 + (s.readMem (s.pc.toNat + 1)).toNat) :
    step s = exec (decode w) s := by
  rw [eq_wordOfBytes hw]
  exact step_eq_exec hf hpc

theorem decodeBytes_pair (hi lo : Byte) : decodeBytes [hi, lo] = .ok (decode (wordOfBytes hi lo), []) := rfl

/-- Settles O34: the two fetch laws, with the fetched word read as a number and as what `decodeBytes` answers. -/
theorem stepRunsTheDecodedInstruction : Obligations.StepRunsTheDecodedInstruction := by
  intro s hf
  refine ⟨step_fetch_error hf, fun hpc => ⟨fun w hw => step_eq_exec_word hf hpc hw, fun i rest h => ?_⟩⟩
  rw [decodeBytes_pair] at h
  cases h
  exact step_eq_exec hf hpc

/-! ## A block store, then the fetch of what it stored (R62) -/

theorem read_blockStore {s : State} {x k : RegIdx} (h : s.i.toNat + x.toNat ≤ 0xFFF) (hk : k.toNat ≤ x.toNat) :
    Memory.read (Memory.writeBytes s.mem s.i.toNat ((regsUpTo x).map s.getV)) (s.i.toNat + k.toNat) = s.getV k := by
  have hlen : ((regsUpTo x).map s.getV).length = x.toNat + 1 := by rw [List.length_map, regsUpTo_length]
  rw [Memory.read_writeBytes _ _ _ _ (by rw [hlen, Config.memSize]; omega), if_pos (by omega), Nat.add_sub_cancel_left,
    regsUpTo_getD s x k hk]

/-- Fx55 advances and leaves Vk at I + k (R175). -/
theorem execLdMemVx_stores {s : State} {x : RegIdx} (h : s.i.toNat + x.toNat ≤ 0xFFF) :
    ∃ t, exec (.ldMemVx x) s = .next t ∧ t.fault = s.fault ∧ t.pc = s.pc + 2 ∧
      ∀ k : RegIdx, k.toNat ≤ x.toNat → t.readMem (s.i.toNat + k.toNat) = s.getV k := by
  refine ⟨_, execLdMemVx_in x s h, by simp, by simp, fun k hk => ?_⟩
  simpa [State.readMem] using read_blockStore h hk

/-- Settles O21: after the store PC is I, where the next fetch finds V0 and V1. -/
theorem storeIsFetchedByTheNextTick : Obligations.StoreIsFetchedByTheNextTick := by
  intro s hf hpc hi
  have hin : s.i.toNat + (1 : RegIdx).toNat ≤ 0xFFF := by rw [hi]; bv_omega
  obtain ⟨t, he, hfault, hpct, hmem⟩ := execLdMemVx_stores hin
  have hti : t.pc = s.i := hpct.trans hi.symm
  have hv0 : t.readMem s.i.toNat = s.getV 0 := hmem 0 (by decide)
  have hv1 : t.readMem (s.i.toNat + 1) = s.getV 1 := hmem 1 (by decide)
  refine ⟨t, he, hti, fun w hw => step_eq_exec_word (hfault.trans hf) ?_ ?_⟩
  · rw [hti, hi]
    bv_omega
  · rw [hti, hv0, hv1, hw]

/-! ## Which addresses a tick may change (R50, R54) -/

theorem EffectOf.mem_eq {i : Instr} {s u : State} (h : EffectOf i s u) (hi : ¬ writesMem i) : u.mem = s.mem := by
  induction h with
  | setMem _ h => exact absurd h hi
  | start => rfl
  | _ => assumption

theorem ExecEnds.memKept {i : Instr} {s t : State} (h : ExecEnds i s t) (hi : ¬ writesMem i) : MemKept s t := by
  intro a
  cases h with
  | advance hu => rw [State.readMem_endOfTick, State.readMem, hu.mem_eq hi, State.readMem]
  | wait => rfl
  | fault => rfl

/-- A draw changes no byte but the display bytes of its rows (R191). -/
theorem read_drawRows_ne (addr : Nat) (o : Origin) (h : Nat) (m : Memory) (a : Nat)
    (h1 : ∀ r < h, a ≠ Config.screenBase + o.col + (o.y + r) * 8)
    (h2 : ∀ r < h, o.shift ≠ 0 → o.col < 7 → a ≠ Config.screenBase + o.col + (o.y + r) * 8 + 1) :
    Memory.read (drawRows addr o h m).1 a = Memory.read m a := by
  induction h with
  | zero => rfl
  | succ h ih =>
    rw [drawRows_succ, read_drawRow_ne _ _ _ _ _ (h1 h h.lt_succ_self) (h2 h h.lt_succ_self)]
    exact ih (fun r hr => h1 r (hr.trans h.lt_succ_self)) fun r hr => h2 r (hr.trans h.lt_succ_self)

/-- The display bytes of a clipped draw lie in the bitmap (R193). -/
theorem read_drawRows_outside (addr height : Nat) (x y : Byte) (m : Memory) (a : Nat)
    (ha : a < 0xF00 ∨ 0xF00 + 0x100 ≤ a) :
    Memory.read (drawRows addr (wrapOrigin x y) (clipHeight (wrapOrigin x y).y height) m).1 a = Memory.read m a := by
  obtain ⟨hcol, -, hy⟩ := wrapOrigin_bounds x y
  have hrow : ∀ r < clipHeight (wrapOrigin x y).y height, (wrapOrigin x y).y + r ≤ 31 := fun r hr => by
    rw [clipHeight] at hr
    omega
  refine read_drawRows_ne _ _ _ _ _ (fun r hr => ?_) fun r hr _ hc => ?_
  · have := hrow r hr
    rw [Config.screenBase]
    omega
  · have := hrow r hr
    rw [Config.screenBase]
    omega

theorem draw_done_mem {addr height : Nat} {x y : Byte} {s u : State} (h : draw addr x y height s = .done u) :
    u.mem = (drawRows addr (wrapOrigin x y) (clipHeight (wrapOrigin x y).y height) s.mem).1 := by
  simp only [draw] at h
  split at h
  · cases h
  · cases h
    rfl

theorem execDrw_memKeptOutside {x y : RegIdx} {n : Nibble} {s t : State} (h : exec (.drw x y n) s = .next t) :
    MemKeptOutside 0xF00 0x100 s t := by
  intro a ha
  obtain ⟨u, hu, rfl⟩ | ⟨-, rfl⟩ | ⟨k, -, rfl⟩ := finish_cases h
  · rw [State.readMem_endOfTick, State.readMem, draw_done_mem hu, read_drawRows_outside _ _ _ _ _ _ ha, State.readMem]
  · rfl
  · rfl

theorem exec_cls (s : State) :
    exec .cls s = .next (s.setMem (Memory.writeBytes s.mem Config.screenBase blankScreen)).endOfTick := rfl

theorem execCls_memKeptOutside {s t : State} (h : exec .cls s = .next t) : MemKeptOutside 0xF00 0x100 s t := by
  rw [exec_cls] at h
  injection h with ht
  intro a ha
  have hout : a < Config.screenBase ∨ Config.screenBase + blankScreen.length ≤ a := by
    rwa [blankScreen_length, Config.screenBase]
  rw [← ht, State.readMem_endOfTick, State.readMem, State.setMem_mem, Memory.read_writeBytes_outside _ _ _ _ hout,
    State.readMem]

theorem exec_execEnds {i : Instr} {s t : State} (h : exec i s = .next t) : ExecEnds i s t := by
  obtain ⟨t', he, ht⟩ := exec_ends i s
  cases h.symm.trans he
  exact ht

/-- Of the instructions that write memory, those that do not store at I write the bitmap alone. -/
theorem exec_memKeptOutside {i : Instr} {s t : State} (h : exec i s = .next t)
    (hi : ∀ x, i ≠ .ldBVx x ∧ i ≠ .ldMemVx x) : MemKeptOutside 0xF00 0x100 s t := by
  by_cases hw : writesMem i
  · rcases hw with rfl | ⟨x, y, n, rfl⟩ | ⟨x, e | e⟩
    · exact execCls_memKeptOutside h
    · exact execDrw_memKeptOutside h
    · exact absurd e (hi x).1
    · exact absurd e (hi x).2
  · exact fun a _ => (exec_execEnds h).memKept hw a

/-- Settles O45: the two bitmap instructions keep what is outside the bitmap, the others make no memory update. -/
theorem onlyFourInstructionsChangeMemory : Obligations.OnlyFourInstructionsChangeMemory := by
  intro s t h hx
  refine ⟨?_, fun hcls hdrw => (step_execEnds h).memKept ?_⟩
  · obtain ⟨-, ⟨-, rfl⟩ | ⟨-, he⟩⟩ := step_cases h
    · exact fun a _ => rfl
    · exact exec_memKeptOutside he hx
  · rintro (e | ⟨x, y, n, e⟩ | ⟨x, e | e⟩)
    · exact hcls e
    · exact hdrw x y n e
    · exact (hx x).1 e
    · exact (hx x).2 e

end Sys2Proof.Machine
end

section
/-! Decoding against encoding (spec/30_encoding.md): what a no-op's fields decode to, what the word of a group decodes
to, and the two round trips. -/

namespace Sys2Proof

/-! ## Well-formed no-ops (R74 to R77) -/

theorem Instr.wellFormed_sys {nnn : Addr12} : (Instr.sys nnn).wellFormed = true ↔ nnn ≠ 0x0E0 ∧ nnn ≠ 0x0EE := by
  simp [Instr.wellFormed]

theorem Instr.wellFormed_nop5 {x y : RegIdx} {n : Nibble} : (Instr.nop5 x y n).wellFormed = true ↔ n ≠ 0 := by
  simp [Instr.wellFormed]

theorem Instr.wellFormed_nop8 {x y : RegIdx} {n : Nibble} : (Instr.nop8 x y n).wellFormed = true ↔ n ∉ aluSubOps := by
  simp [Instr.wellFormed]

theorem Instr.wellFormed_nop9 {x y : RegIdx} {n : Nibble} : (Instr.nop9 x y n).wellFormed = true ↔ n ≠ 0 := by
  simp [Instr.wellFormed]

theorem Instr.wellFormed_nopE {x : RegIdx} {kk : Byte} : (Instr.nopE x kk).wellFormed = true ↔ kk ∉ keySubOps := by
  simp [Instr.wellFormed]

theorem Instr.wellFormed_nopF {x : RegIdx} {kk : Byte} : (Instr.nopF x kk).wellFormed = true ↔ kk ∉ miscSubOps := by
  simp [Instr.wellFormed]

/-! ## What is no sub-opcode of its group decodes to the group's no-op -/

theorem decode0_sys {nnn : Addr12} (h : nnn ≠ 0x0E0 ∧ nnn ≠ 0x0EE) : decode0 nnn = .sys nnn := by
  rw [decode0, if_neg h.1, if_neg h.2]

theorem decode5_nop5 (x y : RegIdx) {n : Nibble} (h : n ≠ 0) : decode5 x y n = .nop5 x y n := if_neg h

theorem decode8_nop8 (x y : RegIdx) {n : Nibble} (h : n ∉ aluSubOps) : decode8 x y n = .nop8 x y n := by
  simp only [aluSubOps, List.mem_cons, List.not_mem_nil, or_false, not_or] at h
  simp only [decode8, h, if_false]

theorem decode9_nop9 (x y : RegIdx) {n : Nibble} (h : n ≠ 0) : decode9 x y n = .nop9 x y n := if_neg h

theorem decodeE_nopE (x : RegIdx) {kk : Byte} (h : kk ∉ keySubOps) : decodeE x kk = .nopE x kk := by
  simp only [keySubOps, List.mem_cons, List.not_mem_nil, or_false, not_or] at h
  simp only [decodeE, h, if_false]

theorem decodeF_nopF (x : RegIdx) {kk : Byte} (h : kk ∉ miscSubOps) : decodeF x kk = .nopF x kk := by
  simp only [miscSubOps, List.mem_cons, List.not_mem_nil, or_false, not_or] at h
  simp only [decodeF, h, if_false]

/-! ## The words of the groups with sub-opcodes (R73) -/

theorem decode_group0 (nnn : Addr12) : decode (encNNN 0x0 nnn) = decode0 nnn := by simp [decode]

theorem decode_group5 (x y : RegIdx) (n : Nibble) : decode (encXYN 0x5 x y n) = decode5 x y n := by simp [decode]

theorem decode_group8 (x y : RegIdx) (n : Nibble) : decode (encXYN 0x8 x y n) = decode8 x y n := by simp [decode]

theorem decode_group9 (x y : RegIdx) (n : Nibble) : decode (encXYN 0x9 x y n) = decode9 x y n := by simp [decode]

theorem decode_groupE (x : RegIdx) (kk : Byte) : decode (encXKK 0xE x kk) = decodeE x kk := by simp [decode]

theorem decode_groupF (x : RegIdx) (kk : Byte) : decode (encXKK 0xF x kk) = decodeF x kk := by simp [decode]

/-! ## From an instruction to its word and back -/

/-- Group by group: a no-op's fields name none of the group's instructions, and the sub-opcode `encode` writes for any
other instruction is the one `decode` selects it by. -/
theorem decode_encode (i : Instr) (h : i.wellFormed = true) : decode (encode i) = i := by
  cases i with
  | cls => exact decode_group0 0x0E0
  | ret => exact decode_group0 0x0EE
  | sys nnn => exact (decode_group0 nnn).trans (decode0_sys (Instr.wellFormed_sys.1 h))
  | seReg x y => exact decode_group5 x y 0x0
  | nop5 x y n => exact (decode_group5 x y n).trans (decode5_nop5 x y (Instr.wellFormed_nop5.1 h))
  | ldReg x y | orReg x y | andReg x y | xorReg x y | addReg x y | subReg x y | shrReg x y | subnReg x y | shlReg x y =>
    exact decode_group8 x y _
  | nop8 x y n => exact (decode_group8 x y n).trans (decode8_nop8 x y (Instr.wellFormed_nop8.1 h))
  | sneReg x y => exact decode_group9 x y 0x0
  | nop9 x y n => exact (decode_group9 x y n).trans (decode9_nop9 x y (Instr.wellFormed_nop9.1 h))
  | skp x | sknp x => exact decode_groupE x _
  | nopE x kk => exact (decode_groupE x kk).trans (decodeE_nopE x (Instr.wellFormed_nopE.1 h))
  | ldVxDt x | ldVxK x | ldDtVx x | ldStVx x | addIVx x | ldFVx x | ldBVx x | ldMemVx x | ldVxMem x =>
    exact decode_groupF x _
  | nopF x kk => exact (decode_groupF x kk).trans (decodeF_nopF x (Instr.wellFormed_nopF.1 h))
  | jp | call | ldI | jpV0 | seImm | sneImm | ldImm | addImm | rnd | drw => simp [encode, decode]

/-- Settles O49: the decoder selects each instruction by the fields its word was put together from. -/
theorem decodeOfEncodeIsTheInstruction : Obligations.DecodeOfEncodeIsTheInstruction := decode_encode

/-- Settles O51: each sample is the word of its well-formed instruction. -/
theorem sampleWordsDecode : Obligations.SampleWordsDecode :=
  ⟨decode_encode .cls rfl, decode_encode .ret rfl, decode_encode (.sys 0x1E0) rfl, decode_encode (.jp 0x234) rfl,
    decode_encode (.call 0x210) rfl, decode_encode (.seImm 3 0x12) rfl, decode_encode (.sneImm 3 0x12) rfl,
    decode_encode (.seReg 1 2) rfl, decode_encode (.addImm 1 0x01) rfl, decode_encode (.sneReg 1 2) rfl,
    decode_encode (.ldI 0x2F0) rfl, decode_encode (.ldImm 0xC 0x17) rfl, decode_encode (.shrReg 1 2) rfl,
    decode_encode (.nop8 1 2 0xF) rfl, decode_encode (.jpV0 0xF01) rfl, decode_encode (.rnd 0xA 0xFE) rfl,
    decode_encode (.drw 1 2 3) rfl, decode_encode (.skp 5) rfl, decode_encode (.ldBVx 0xA) rfl,
    decode_encode (.nopF 1 0x30) rfl⟩

/-! ## A word is made of its fields (R70) -/

theorem encNNN_fields (w : Word) : encNNN w.group w.nnn = w := by
  apply BitVec.eq_of_toNat_eq
  rw [encNNN_toNat, Word.group_toNat, Word.nnn_toNat]
  omega

theorem encXKK_fields (w : Word) : encXKK w.group w.x w.kk = w := by
  apply BitVec.eq_of_toNat_eq
  rw [encXKK_toNat, Word.group_toNat, Word.x_toNat, Word.kk_toNat]
  omega

theorem encXYN_fields (w : Word) : encXYN w.group w.x w.y w.n = w := by
  apply BitVec.eq_of_toNat_eq
  rw [encXYN_toNat, Word.group_toNat, Word.x_toNat, Word.y_toNat, Word.n_toNat]
  omega

/-! ## From a word to its instruction and back -/

/-- `i` is a well-formed instruction whose word is `w`. -/
def HasWord (i : Instr) (w : Word) : Prop := i.wellFormed = true ∧ encode i = w

theorem HasWord.of_nnn {i : Instr} {w : Word} {g : Nibble} (hg : w.group = g) (h : HasWord i (encNNN g w.nnn)) :
    HasWord i w := by
  rwa [← hg, encNNN_fields] at h

theorem HasWord.of_xkk {i : Instr} {w : Word} {g : Nibble} (hg : w.group = g) (h : HasWord i (encXKK g w.x w.kk)) :
    HasWord i w := by
  rwa [← hg, encXKK_fields] at h

theorem HasWord.of_xyn {i : Instr} {w : Word} {g : Nibble} (hg : w.group = g)
    (h : HasWord i (encXYN g w.x w.y w.n)) : HasWord i w := by
  rwa [← hg, encXYN_fields] at h

theorem decode0_hasWord (nnn : Addr12) : HasWord (decode0 nnn) (encNNN 0x0 nnn) := by
  by_cases h0 : nnn = 0x0E0
  · subst h0
    exact ⟨rfl, rfl⟩
  by_cases h1 : nnn = 0x0EE
  · subst h1
    exact ⟨rfl, rfl⟩
  · rw [decode0_sys ⟨h0, h1⟩]
    exact ⟨Instr.wellFormed_sys.2 ⟨h0, h1⟩, rfl⟩

theorem decode5_hasWord (x y : RegIdx) (n : Nibble) : HasWord (decode5 x y n) (encXYN 0x5 x y n) := by
  by_cases h : n = 0
  · subst h
    exact ⟨rfl, rfl⟩
  · rw [decode5_nop5 x y h]
    exact ⟨Instr.wellFormed_nop5.2 h, rfl⟩

theorem decode8_hasWord (x y : RegIdx) (n : Nibble) : HasWord (decode8 x y n) (encXYN 0x8 x y n) := by
  by_cases h : n ∈ aluSubOps
  · simp only [aluSubOps, List.mem_cons, List.not_mem_nil, or_false] at h
    rcases h with rfl | rfl | rfl | rfl | rfl | rfl | rfl | rfl | rfl <;> exact ⟨rfl, rfl⟩
  · rw [decode8_nop8 x y h]
    exact ⟨Instr.wellFormed_nop8.2 h, rfl⟩

theorem decode9_hasWord (x y : RegIdx) (n : Nibble) : HasWord (decode9 x y n) (encXYN 0x9 x y n) := by
  by_cases h : n = 0
  · subst h
    exact ⟨rfl, rfl⟩
  · rw [decode9_nop9 x y h]
    exact ⟨Instr.wellFormed_nop9.2 h, rfl⟩

theorem decodeE_hasWord (x : RegIdx) (kk : Byte) : HasWord (decodeE x kk) (encXKK 0xE x kk) := by
  by_cases h : kk ∈ keySubOps
  · simp only [keySubOps, List.mem_cons, List.not_mem_nil, or_false] at h
    rcases h with rfl | rfl <;> exact ⟨rfl, rfl⟩
  · rw [decodeE_nopE x h]
    exact ⟨Instr.wellFormed_nopE.2 h, rfl⟩

theorem decodeF_hasWord (x : RegIdx) (kk : Byte) : HasWord (decodeF x kk) (encXKK 0xF x kk) := by
  by_cases h : kk ∈ miscSubOps
  · simp only [miscSubOps, List.mem_cons, List.not_mem_nil, or_false] at h
    rcases h with rfl | rfl | rfl | rfl | rfl | rfl | rfl | rfl | rfl <;> exact ⟨rfl, rfl⟩
  · rw [decodeF_nopF x h]
    exact ⟨Instr.wellFormed_nopF.2 h, rfl⟩

theorem HasWord.ite {p : Prop} [Decidable p] {i j : Instr} {w : Word} (hi : p → HasWord i w)
    (hj : ¬ p → HasWord j w) : HasWord (if p then i else j) w :=
  iteInduction (motive := (HasWord · w)) hi hj

/-- The decoder's branches, one per group: the group gives the word its high field, the branch every other one. -/
theorem decode_hasWord (w : Word) : HasWord (decode w) w := by
  unfold decode
  refine .ite (fun h => .of_nnn h (decode0_hasWord _)) fun h0 => ?_
  refine .ite (fun h => .of_nnn h ⟨rfl, rfl⟩) fun h1 => ?_
  refine .ite (fun h => .of_nnn h ⟨rfl, rfl⟩) fun h2 => ?_
  refine .ite (fun h => .of_xkk h ⟨rfl, rfl⟩) fun h3 => ?_
  refine .ite (fun h => .of_xkk h ⟨rfl, rfl⟩) fun h4 => ?_
  refine .ite (fun h => .of_xyn h (decode5_hasWord _ _ _)) fun h5 => ?_
  refine .ite (fun h => .of_xkk h ⟨rfl, rfl⟩) fun h6 => ?_
  refine .ite (fun h => .of_xkk h ⟨rfl, rfl⟩) fun h7 => ?_
  refine .ite (fun h => .of_xyn h (decode8_hasWord _ _ _)) fun h8 => ?_
  refine .ite (fun h => .of_xyn h (decode9_hasWord _ _ _)) fun h9 => ?_
  refine .ite (fun h => .of_nnn h ⟨rfl, rfl⟩) fun hA => ?_
  refine .ite (fun h => .of_nnn h ⟨rfl, rfl⟩) fun hB => ?_
  refine .ite (fun h => .of_xkk h ⟨rfl, rfl⟩) fun hC => ?_
  refine .ite (fun h => .of_xyn h ⟨rfl, rfl⟩) fun hD => ?_
  refine .ite (fun h => .of_xkk h (decodeE_hasWord _ _)) fun hE => ?_
  have hF : w.group = 0xF := by bv_omega
  exact .of_xkk hF (decodeF_hasWord _ _)

/-- Settles O50: in every branch of the decoder the fields read are the fields written. -/
theorem everyWordIsTheWordOfItsInstruction : Obligations.EveryWordIsTheWordOfItsInstruction := decode_hasWord

end Sys2Proof
end

section
/-! Control transfer (spec/40_control_flow.md): what the end of a tick keeps and does to the timers, what a transfer
leaves unchanged, where each of JP, CALL, RET and JP V0 goes, and the timers of every tick that advances. -/

namespace Sys2Proof.Machine

/-! ## The end of a tick against the frame predicates (R100, R216) -/

section EndOfTick

variable {s u : State}

@[simp] theorem regsKeptExcept_endOfTick {xs : List RegIdx} :
    RegsKeptExcept xs s u.endOfTick ↔ RegsKeptExcept xs s u := by
  simp [RegsKeptExcept]

@[simp] theorem memKept_endOfTick : MemKept s u.endOfTick ↔ MemKept s u := by
  simp [MemKept]

@[simp] theorem stackKept_endOfTick : StackKept s u.endOfTick ↔ StackKept s u := by
  simp [StackKept]

@[simp] theorem inputsKept_endOfTick : InputsKept s u.endOfTick ↔ InputsKept s u := by
  simp [InputsKept]

/-- The timer-divider step starts from the timers the execute part left. -/
theorem timersStepped_endOfTick (htc : u.tc = s.tc) : TimersStepped u.dt u.st s u.endOfTick := by
  rw [TimersStepped, ← htc, State.endOfTick_tc, State.endOfTick_dt, State.endOfTick_st]
  refine ⟨fun h => ?_, fun h => ?_⟩
  · have h0 : u.tc = 0 := Fin.ext h
    simp [h0, countDown_toNat]
  · have h0 : u.tc ≠ 0 := Fin.pos_iff_ne_zero.1 h
    simp only [h0, if_false, and_self, and_true]
    omega

end EndOfTick

/-! ## What two ticks keep -/

section Trans

variable {s t u : State}

theorem RegsKeptExcept.trans {xs : List RegIdx} (h : RegsKeptExcept xs s t) (h' : RegsKeptExcept xs t u) :
    RegsKeptExcept xs s u :=
  fun r hr => (h' r hr).trans (h r hr)

theorem MemKept.trans (h : MemKept s t) (h' : MemKept t u) : MemKept s u :=
  fun a => (h' a).trans (h a)

theorem InputsKept.trans (h : InputsKept s t) (h' : InputsKept t u) : InputsKept s u := by
  obtain ⟨hkeys, hschip, hfault, hdraws⟩ := h
  obtain ⟨hkeys', hschip', hfault', hdraws'⟩ := h'
  exact ⟨hkeys'.trans hkeys, hschip'.trans hschip, hfault'.trans hfault, hdraws'.trans hdraws⟩

end Trans

/-! ## The targets (R102, R105) -/

/-- The common advance makes up for the 2 that `jumpPc` takes off (R102). -/
theorem jump_pc (s : State) (a : Word) : (s.setPc (jumpPc a)).endOfTick.pc = a := by
  rw [State.endOfTick_pc, State.setPc_pc]
  exact BitVec.sub_add_cancel a 2

@[simp] theorem zext16_toNat (nnn : Addr12) : (zext16 nnn).toNat = nnn.toNat :=
  BitVec.toNat_setWidth_of_le (by decide)

theorem jpV0Target_toNat (nnn : Addr12) (b : Byte) : (zext16 nnn + b.zeroExtend 16).toNat = nnn.toNat + b.toNat := by
  have := nnn.isLt
  have := b.isLt
  simp only [zext16]
  bv_omega

/-! ## The transfers -/

/-- A tick whose execute part writes the stack, SP and PC alone keeps all but these and the timers. -/
theorem transfer_keeps (s : State) (stack : Vector Word Config.stackDepth) (n : Fin (Config.stackDepth + 1))
    (a : Word) (t : State) (ht : t = (State.setPc { s with stack := stack, sp := n } a).endOfTick) :
    RegsKeptExcept [] s t ∧ t.i = s.i ∧ MemKept s t ∧ InputsKept s t ∧ TimersStepped s.dt s.st s t := by
  subst ht
  exact ⟨regsKeptExcept_endOfTick.2 fun _ _ => rfl, State.endOfTick_i _, memKept_endOfTick.2 fun _ => rfl,
    inputsKept_endOfTick.2 ⟨rfl, rfl, rfl, rfl⟩, timersStepped_endOfTick rfl⟩

/-- A tick whose execute part writes PC alone. -/
theorem onlyRegsAndPc_setPc (s : State) (a : Word) : OnlyRegsAndPc [] s (s.setPc a).endOfTick := by
  obtain ⟨hregs, hi, hmem, hinputs, htimers⟩ := transfer_keeps s s.stack s.sp a _ rfl
  exact ⟨hregs, hi, stackKept_endOfTick.2 ⟨rfl, rfl⟩, hmem, hinputs, htimers⟩

/-- Settles O1: nnn is zero-extended, so the word PC goes to has its value. -/
theorem jumpGoesToTarget : Obligations.JumpGoesToTarget := by
  intro nnn s
  refine ⟨decode_encode (.jp nnn) rfl, _, rfl, ?_, onlyRegsAndPc_setPc s _⟩
  rw [jump_pc, zext16_toNat]

/-- Settles O4: nnn + V0 is at most 0x10FE, so the 16-bit sum is the exact one. -/
theorem jumpWithOffsetAddsV0 : Obligations.JumpWithOffsetAddsV0 := by
  intro nnn s
  refine ⟨decode_encode (.jpV0 nnn) rfl, _, rfl, ?_, onlyRegsAndPc_setPc s _⟩
  rw [jump_pc, jpV0Target_toNat]

/-- Settles O2: the two branches of the push. -/
theorem callPushesItsAddressAndJumps : Obligations.CallPushesItsAddressAndJumps := by
  intro nnn s
  refine ⟨decode_encode (.call nnn) rfl, fun h => ?_, execCall_full nnn s⟩
  refine ⟨_, execCall_room nnn s h, by rw [jump_pc, zext16_toNat], by simp, by simp, fun j hj hne => ?_, transfer_keeps s _ _ _ _ rfl⟩
  simp [Vector.getElem_set_ne, hne.symm]

/-- Settles O3: the two branches of the pop. -/
theorem returnGoesPastTheCall : Obligations.ReturnGoesPastTheCall := by
  refine ⟨decode_encode .ret rfl, fun s => ⟨fun h => ?_, execRet_empty s⟩⟩
  obtain ⟨hlt, he⟩ := execRet_full s h
  refine ⟨_, he, ?_, by simp, by simp, transfer_keeps s s.stack _ _ _ rfl⟩
  rw [State.endOfTick_sp, State.setPc_sp]
  exact Nat.sub_add_cancel h

/-- Settles O5: the RET reads the entry the CALL wrote, and the two frames compose. -/
theorem callThenReturnResumesAfterCall : Obligations.CallThenReturnResumesAfterCall := by
  intro nnn s h
  obtain ⟨-, hroom, -⟩ := callPushesItsAddressAndJumps nnn s
  obtain ⟨t, hcall, -, hsp, htop, hbelow, hregs, hi, hmem, hinputs, -⟩ := hroom h
  obtain ⟨-, hreturn⟩ := returnGoesPastTheCall
  obtain ⟨u, hret, hsp', hpc', hstack', hregs', hi', hmem', hinputs', -⟩ := (hreturn t).1 (by omega)
  refine ⟨t, u, hcall, hret, ?_, Fin.ext (by omega), fun j hj hlt => ?_, hregs.trans hregs', hi'.trans hi,
    hmem.trans hmem', hinputs.trans hinputs'⟩
  · simp only [hpc', hsp, Nat.add_sub_cancel, htop]
  · simp only [hstack', hbelow j hj hlt.ne]

/-! ## The timers of every tick that advances (R100, R216, R278) -/

namespace EffectOf

variable {i : Instr} {s u : State}

theorem dt_eq (h : EffectOf i s u) (hi : ∀ x, i ≠ .ldDtVx x) : u.dt = s.dt := by
  induction h with
  | setDt _ h => exact absurd h (hi _)
  | start => rfl
  | _ => assumption

theorem st_eq (h : EffectOf i s u) (hi : ∀ x, i ≠ .ldStVx x) : u.st = s.st := by
  induction h with
  | setSt _ h => exact absurd h (hi _)
  | start => rfl
  | _ => assumption

end EffectOf

theorem exec_ldDtVx (x : RegIdx) (s : State) : exec (.ldDtVx x) s = .next (s.setDt (s.getV x)).endOfTick := rfl

theorem exec_ldStVx (x : RegIdx) (s : State) : exec (.ldStVx x) s = .next (s.setSt (s.getV x)).endOfTick := rfl

theorem resultOf_advanced (s t : State) : resultOf s t = .advanced ↔ t.fault = none ∧ t ≠ s := by
  unfold resultOf
  cases t.fault with
  | some k => simp
  | none => by_cases h : t = s <;> simp [h]

/-- A tick that advances ends with the end of tick after an execute part of the instruction at PC. -/
theorem tick_advanced {s : State} (hf : s.fault = none) (h : (tick s).1 = .advanced) :
    exec s.instrAtPc s = .next (tick s).2 ∧ ∃ u, EffectOf s.instrAtPc s u ∧ (tick s).2 = u.endOfTick := by
  obtain ⟨t, ht⟩ := step_next hf
  rw [tick_eq ht] at h ⊢
  obtain ⟨hfault, hne⟩ := (resultOf_advanced s t).1 h
  rcases step_ends ht with rfl | ⟨hpc, hends⟩
  · simp at hfault
  · refine ⟨(step_eq_exec hf hpc).symm.trans ht, ?_⟩
    cases hends with
    | advance hu => exact ⟨_, hu, rfl⟩
    | wait => exact absurd rfl hne
    | fault => simp at hfault

/-- Settles O39: Fx15 and Fx18 write one timer each, no other instruction writes one. -/
theorem everyAdvancingTickStepsTheTimers : Obligations.EveryAdvancingTickStepsTheTimers := by
  intro s hf h
  obtain ⟨he, u, hu, ht⟩ := tick_advanced hf h
  by_cases hdt : ∃ x, s.instrAtPc = .ldDtVx x
  · obtain ⟨x, hx⟩ := hdt
    rw [hx, exec_ldDtVx] at he
    injection he with he
    exact ⟨s.getV x, s.st, he ▸ timersStepped_endOfTick rfl, by simp [hx], by simp [hx], by simp [hx], fun _ => rfl⟩
  by_cases hst : ∃ x, s.instrAtPc = .ldStVx x
  · obtain ⟨x, hx⟩ := hst
    rw [hx, exec_ldStVx] at he
    injection he with he
    exact ⟨s.dt, s.getV x, he ▸ timersStepped_endOfTick rfl, by simp [hx], fun _ => rfl, by simp [hx], by simp [hx]⟩
  · push Not at hdt hst
    obtain ⟨-, -, -, htc⟩ := hu.untouched
    refine ⟨s.dt, s.st, ?_, fun x hx => absurd hx (hdt x), fun _ => rfl, fun x hx => absurd hx (hst x), fun _ => rfl⟩
    rw [ht, ← hu.dt_eq hdt, ← hu.st_eq hst]
    exact timersStepped_endOfTick htc

end Sys2Proof.Machine
end

section
/-! The conditional skips (spec/41_skips.md): where a skip goes on its condition, and when the key lookup answers yes. -/

namespace Sys2Proof.Machine

/-! ## The tick of a skip (R100, R120) -/

/-- The execute part of a skip writes PC alone, and at most moves it on by 2. -/
theorem skipIf_eq_setPc (c : Bool) (s : State) : skipIf c s = .done (s.setPc (s.pc + if c then 2 else 0)) := by
  cases c with
  | true => rfl
  | false => simp [skipIf, State.setPc]

/-- The common advance adds its own 2 to the 2 of a skip taken. -/
theorem finish_skipIf {c : Bool} {d : Word} (s : State) (hd : d = if c then 4 else 2) :
    ∃ t, finish s (skipIf c s) = .next t ∧ t.pc = s.pc + d ∧ OnlyRegsAndPc [] s t := by
  rw [skipIf_eq_setPc, finish_done]
  refine ⟨_, rfl, ?_, onlyRegsAndPc_setPc s _⟩
  rw [State.endOfTick_pc, State.setPc_pc, BitVec.add_assoc, hd]
  cases c <;> rfl

/-! ## The key lookup (R219) -/

/-- A value up to 0xF keeps its value in four bits, so the key looked up is the one it numbers. -/
theorem State.keyDown_truncate (s : State) {v : Byte} (h : v.toNat < 16) :
    s.keyDown (v.truncate 4) = s.keys[v.toNat] := by
  have hidx : (v.truncate 4).toNat = v.toNat := by
    rw [BitVec.truncate_eq_setWidth, BitVec.toNat_setWidth]
    exact Nat.mod_eq_of_lt h
  simp only [State.keyDown, hidx]

theorem State.isKeyPressed_iff (s : State) (v : Byte) :
    s.isKeyPressed v = true ↔ ∃ h : v.toNat < 16, s.keys[v.toNat] = true := by
  rw [State.isKeyPressed, Bool.and_eq_true, decide_eq_true_iff]
  constructor
  · rintro ⟨hle, hdown⟩
    have h : v.toNat < 16 := Nat.lt_succ_of_le hle
    exact ⟨h, (s.keyDown_truncate h).symm.trans hdown⟩
  · rintro ⟨h, hdown⟩
    exact ⟨Nat.le_of_lt_succ h, (s.keyDown_truncate h).trans hdown⟩

theorem State.isKeyPressed_eq_false_iff (s : State) (v : Byte) :
    s.isKeyPressed v = false ↔ ∀ h : v.toNat < 16, s.keys[v.toNat] = false := by
  simp [← Bool.not_eq_true, s.isKeyPressed_iff]

/-! ## The three pairs -/

/-- Settles O6: SNE tests the negation of what SE tests. -/
theorem skipsOnImmediate : Obligations.SkipsOnImmediate := by
  intro x kk s
  exact ⟨decode_encode (.seImm x kk) rfl, decode_encode (.sneImm x kk) rfl, finish_skipIf s (by simp),
    finish_skipIf s (by simp)⟩

/-- Settles O7: as O6, with Vy in the place of kk. -/
theorem skipsOnRegisters : Obligations.SkipsOnRegisters := by
  intro x y s
  exact ⟨decode_encode (.seReg x y) rfl, decode_encode (.sneReg x y) rfl, finish_skipIf s (by simp),
    finish_skipIf s (by simp)⟩

/-- Settles O8: the two cases are the two answers of the key lookup. -/
theorem skipsOnKeys : Obligations.SkipsOnKeys := by
  intro x s
  refine ⟨decode_encode (.skp x) rfl, decode_encode (.sknp x) rfl, fun h => ?_, fun h => ?_⟩
  · have hkey := (s.isKeyPressed_iff (s.getV x)).2 h
    exact ⟨finish_skipIf s (by simp [hkey]), finish_skipIf s (by simp [hkey])⟩
  · have hkey := (s.isKeyPressed_eq_false_iff (s.getV x)).2 h
    exact ⟨finish_skipIf s (by simp [hkey]), finish_skipIf s (by simp [hkey])⟩

end Sys2Proof.Machine
end

section
/-! Loads, arithmetic, logic and the random byte (spec/42_alu.md): what a tick that writes registers alone leaves
unchanged, the flags as numbers, and which instruction draws from the random source. -/

namespace Sys2Proof.Machine

/-! ## A tick that writes V registers alone (R22, R140) -/

section Writes

variable (s : State) (x : RegIdx)

/-- A tick whose execute part writes V registers alone keeps everything else but PC and the timers. -/
theorem onlyRegsAndPc_of_regs {xs : List RegIdx} {v : Vector Byte 16} (h : RegsKeptExcept xs s { s with v := v }) :
    OnlyRegsAndPc xs s (State.endOfTick { s with v := v }) :=
  ⟨regsKeptExcept_endOfTick.2 h, State.endOfTick_i _, stackKept_endOfTick.2 ⟨rfl, rfl⟩,
    memKept_endOfTick.2 fun _ => rfl, inputsKept_endOfTick.2 ⟨rfl, rfl, rfl, rfl⟩, timersStepped_endOfTick rfl⟩

theorem getV_endOfTick_setV (b : Byte) : (s.setV x b).endOfTick.getV x = b := by
  rw [State.getV_endOfTick, State.getV_setV_self]

theorem onlyRegsAndPc_setV (b : Byte) : OnlyRegsAndPc [x] s (s.setV x b).endOfTick :=
  onlyRegsAndPc_of_regs s fun r hr => State.getV_setV_ne s x r b (List.ne_of_not_mem_cons hr)

theorem State.getV_setResultFlag_vf (r f : Byte) : (s.setResultFlag x r f).getV vf = f := by
  rw [State.getV_setResultFlag, if_pos rfl]

theorem State.getV_setResultFlag_dest {x : RegIdx} (r f : Byte) (hx : x ≠ vf) : (s.setResultFlag x r f).getV x = r := by
  rw [State.getV_setResultFlag, if_neg hx, if_pos rfl]

theorem State.getV_setResultFlag_ne {k : RegIdx} (r f : Byte) (hk : k ∉ [x, vf]) :
    (s.setResultFlag x r f).getV k = s.getV k := by
  obtain ⟨hkx, hkf⟩ : k ≠ x ∧ k ≠ vf := by simpa using hk
  rw [State.getV_setResultFlag, if_neg hkf, if_neg hkx]

/-- The flag is written after the result, so VF holds it even when x is F (R22, R140). -/
theorem finish_setResultFlag (r f : Byte) :
    ∃ t, finish s (.done (s.setResultFlag x r f)) = .next t ∧ (x ≠ 0xF → t.getV x = r) ∧ t.getV 0xF = f ∧
      t.pc = s.pc + 2 ∧ OnlyRegsAndPc [x, 0xF] s t :=
  ⟨_, rfl, fun hx => (State.getV_endOfTick _ x).trans (s.getV_setResultFlag_dest r f hx),
    (State.getV_endOfTick _ vf).trans (s.getV_setResultFlag_vf x r f), State.endOfTick_pc _,
    onlyRegsAndPc_of_regs s fun _ hk => s.getV_setResultFlag_ne x r f hk⟩

end Writes

/-! ## Results and flags as numbers (R148 to R152) -/

theorem flagByte_toNat (b : Bool) : (flagByte b).toNat = if b then 1 else 0 := by
  cases b <;> rfl

theorem carry_toNat (a b : Byte) : (carry a b).toNat = if a.toNat + b.toNat > 255 then 1 else 0 := by
  simp [carry, flagByte_toNat]

theorem notBorrow_toNat (a b : Byte) : (notBorrow a b).toNat = if a.toNat < b.toNat then 0 else 1 := by
  by_cases h : a.toNat < b.toNat <;> simp [notBorrow, flagByte_toNat, h]

/-- A wrapping subtraction is the exact difference modulo 256 (R149, R151). -/
theorem toNat_sub_eq_emod (a b : Byte) : ((a - b).toNat : Int) = (a.toNat - b.toNat : Int) % 256 := by
  have := a.isLt
  have := b.isLt
  rw [BitVec.toNat_sub]
  omega

theorem shrOut_toNat (o : Byte) : (shrOut o).toNat = o.toNat % 2 := by
  rw [shrOut, BitVec.toNat_and]
  exact Nat.and_one_is_mod _

theorem shlOut_toNat (o : Byte) : (shlOut o).toNat = o.toNat / 128 := by
  rw [shlOut, BitVec.toNat_ushiftRight, Nat.shiftRight_eq_div_pow]

/-- The execute part of 8xy5 and 8xy7: a - b with NOT borrow (R149, R151). -/
theorem finish_subtract (s : State) (x : RegIdx) (a b : Byte) :
    ∃ t, finish s (.done (s.setResultFlag x (a - b) (notBorrow a b))) = .next t ∧
      (x ≠ 0xF → ((t.getV x).toNat : Int) = (a.toNat - b.toNat : Int) % 256) ∧
      (t.getV 0xF).toNat = (if a.toNat < b.toNat then 0 else 1) ∧ t.pc = s.pc + 2 ∧ OnlyRegsAndPc [x, 0xF] s t := by
  obtain ⟨t, he, hresult, hflag, hrest⟩ := finish_setResultFlag s x (a - b) (notBorrow a b)
  exact ⟨t, he, fun hx => by rw [hresult hx, toNat_sub_eq_emod], by rw [hflag, notBorrow_toNat], hrest⟩

/-! ## The statements on one instruction each -/

/-- Settles O9: each is one register write. -/
theorem loadsSetVx : Obligations.LoadsSetVx := by
  intro x y kk s
  exact ⟨decode_encode (.ldImm x kk) rfl, decode_encode (.ldReg x y) rfl,
    ⟨_, rfl, getV_endOfTick_setV s x kk, State.endOfTick_pc _, onlyRegsAndPc_setV s x kk⟩,
    ⟨_, rfl, getV_endOfTick_setV s x (s.getV y), State.endOfTick_pc _, onlyRegsAndPc_setV s x (s.getV y)⟩⟩

/-- Settles O10: one register write, of an 8-bit sum. -/
theorem addImmediateWrapsWithoutFlag : Obligations.AddImmediateWrapsWithoutFlag := by
  intro x kk s
  refine ⟨decode_encode (.addImm x kk) rfl, _, rfl, ?_, State.endOfTick_pc _, onlyRegsAndPc_setV s x (s.getV x + kk)⟩
  rw [getV_endOfTick_setV, BitVec.toNat_add]

/-- Settles O11: one register write each, of a byte whose bits are the operation on the operands' bits. -/
theorem logicWorksBitByBitWithoutFlag : Obligations.LogicWorksBitByBitWithoutFlag := by
  intro x y s
  refine ⟨decode_encode (.orReg x y) rfl, decode_encode (.andReg x y) rfl, decode_encode (.xorReg x y) rfl,
    ⟨_, rfl, fun k => ?_, State.endOfTick_pc _, onlyRegsAndPc_setV s x (s.getV x ||| s.getV y)⟩,
    ⟨_, rfl, fun k => ?_, State.endOfTick_pc _, onlyRegsAndPc_setV s x (s.getV x &&& s.getV y)⟩,
    ⟨_, rfl, fun k => ?_, State.endOfTick_pc _, onlyRegsAndPc_setV s x (s.getV x ^^^ s.getV y)⟩⟩
  · rw [getV_endOfTick_setV, BitVec.getLsbD_or]
  · rw [getV_endOfTick_setV, BitVec.getLsbD_and]
  · rw [getV_endOfTick_setV, BitVec.getLsbD_xor]

/-- Settles O12: the result and the carry are both made from the values before. -/
theorem addSetsCarry : Obligations.AddSetsCarry := by
  intro x y s
  obtain ⟨t, he, hresult, hflag, hrest⟩ :=
    finish_setResultFlag s x (s.getV x + s.getV y) (carry (s.getV x) (s.getV y))
  exact ⟨decode_encode (.addReg x y) rfl, t, he, fun hx => by rw [hresult hx, BitVec.toNat_add],
    by rw [hflag, carry_toNat], hrest⟩

/-- Settles O13: SUBN is SUB's subtraction with the operands exchanged. -/
theorem subtractionsSetNotBorrow : Obligations.SubtractionsSetNotBorrow := by
  intro x y s
  exact ⟨decode_encode (.subReg x y) rfl, decode_encode (.subnReg x y) rfl,
    finish_subtract s x (s.getV x) (s.getV y), finish_subtract s x (s.getV y) (s.getV x)⟩

/-- Settles O14: the operand the mode selects, shifted, and the bit it loses. -/
theorem shiftsSetTheBitShiftedOut : Obligations.ShiftsSetTheBitShiftedOut := by
  intro x y s
  refine ⟨decode_encode (.shrReg x y) rfl, decode_encode (.shlReg x y) rfl, ?_, ?_⟩
  · obtain ⟨t, he, hresult, hflag, hrest⟩ :=
      finish_setResultFlag s x (s.shiftOperand x y >>> 1) (shrOut (s.shiftOperand x y))
    refine ⟨t, he, fun hx => ?_, by rw [hflag, shrOut_toNat, State.shiftOperand], hrest⟩
    rw [hresult hx, BitVec.toNat_ushiftRight, Nat.shiftRight_eq_div_pow, State.shiftOperand, pow_one]
  · obtain ⟨t, he, hresult, hflag, hrest⟩ :=
      finish_setResultFlag s x (s.shiftOperand x y <<< 1) (shlOut (s.shiftOperand x y))
    refine ⟨t, he, fun hx => ?_, by rw [hflag, shlOut_toNat, State.shiftOperand], hrest⟩
    rw [hresult hx, BitVec.toNat_shiftLeft, Nat.shiftLeft_eq, State.shiftOperand, pow_one]

/-! ## The random source (R153, R261) -/

theorem exec_rnd (x : RegIdx) (kk : Byte) (s : State) : exec (.rnd x kk) s =
    .next (s.drawRandom.2.setV x (Config.randomByte s.draws &&& kk)).endOfTick := rfl

/-- Settles O15: after the draw, which changes the count alone, Cxkk is one register write. -/
theorem randomByteIsMaskedAndDrawnOnce : Obligations.RandomByteIsMaskedAndDrawnOnce := by
  intro x kk s
  obtain ⟨hregs, hi, hstack, hmem, ⟨hkeys, hschip, hfault, hdraws⟩, htimers⟩ :=
    onlyRegsAndPc_setV s.drawRandom.2 x (Config.randomByte s.draws &&& kk)
  refine ⟨decode_encode (.rnd x kk) rfl, _, exec_rnd x kk s, fun k => ?_, fun hkk => ?_, hdraws,
    State.endOfTick_pc _, hregs, hi, hstack, hmem, hkeys, hschip, hfault, htimers⟩
  · rw [getV_endOfTick_setV, BitVec.getLsbD_and]
  · rw [getV_endOfTick_setV, hkk]
    exact BitVec.and_zero

theorem EffectOf.draws_eq {i : Instr} {s u : State} (h : EffectOf i s u) (hi : ∀ x kk, i ≠ .rnd x kk) :
    u.draws = s.draws := by
  induction h with
  | draw _ h => exact absurd h (hi _ _)
  | start => rfl
  | _ => assumption

theorem ExecEnds.draws_eq {i : Instr} {s t : State} (h : ExecEnds i s t) (hi : ∀ x kk, i ≠ .rnd x kk) :
    t.draws = s.draws := by
  cases h with
  | advance hu => rw [State.endOfTick_draws, hu.draws_eq hi]
  | wait => rfl
  | fault => rfl

/-- Settles O46: Cxkk always completes with its draw, and no other instruction's updates hold one. -/
theorem onlyRandomDraws : Obligations.OnlyRandomDraws := by
  intro s t h hpc
  refine ⟨fun x kk hx => ?_, (step_execEnds h).draws_eq⟩
  obtain ⟨hf, -⟩ := step_cases h
  rw [step_eq_exec hf hpc, hx, exec_rnd] at h
  injection h with ht
  rw [← ht, State.endOfTick_draws, State.setV_draws, State.drawRandom_draws]

end Sys2Proof.Machine
end

section
/-! The index register and the memory transfers (spec/43_index_memory.md): what a tick that writes V registers, I and
memory alone leaves unchanged, and the font address and the decimal digits as numbers. -/

namespace Sys2Proof.Machine

/-! ## The tick of a transfer (R100, R170) -/

section Transfer

variable (s : State)

/-- A tick whose execute part writes V registers, I and memory alone keeps the stack and the inputs and steps the
timers. -/
theorem indexMemory_keeps (v : Vector Byte 16) (a : Word) (m : Memory) (t : State)
    (ht : t = State.endOfTick { s with v := v, i := a, mem := m }) :
    StackKept s t ∧ InputsKept s t ∧ TimersStepped s.dt s.st s t := by
  subst ht
  exact ⟨stackKept_endOfTick.2 ⟨rfl, rfl⟩, inputsKept_endOfTick.2 ⟨rfl, rfl, rfl, rfl⟩, timersStepped_endOfTick rfl⟩

/-- A tick whose execute part writes I alone. -/
theorem setI_keeps (a : Word) (t : State) (ht : t = (s.setI a).endOfTick) :
    t.pc = s.pc + 2 ∧ RegsKeptExcept [] s t ∧ StackKept s t ∧ MemKept s t ∧ InputsKept s t ∧
      TimersStepped s.dt s.st s t := by
  obtain ⟨hstack, hinputs, htimers⟩ := indexMemory_keeps s s.v a s.mem t ht
  subst ht
  exact ⟨State.endOfTick_pc _, regsKeptExcept_endOfTick.2 fun _ _ => rfl, hstack, memKept_endOfTick.2 fun _ => rfl,
    hinputs, htimers⟩

/-- A tick whose execute part stores consecutive bytes and writes I. -/
theorem storeBytes_keeps (lo : Nat) (bs : List Byte) (a : Word) (t : State)
    (ht : t = ((s.setMem (Memory.writeBytes s.mem lo bs)).setI a).endOfTick) :
    MemKeptOutside lo bs.length s t ∧ t.pc = s.pc + 2 ∧ RegsKeptExcept [] s t ∧ StackKept s t ∧ InputsKept s t ∧
      TimersStepped s.dt s.st s t := by
  obtain ⟨hstack, hinputs, htimers⟩ := indexMemory_keeps s s.v a _ t ht
  subst ht
  refine ⟨fun x hx => ?_, State.endOfTick_pc _, regsKeptExcept_endOfTick.2 fun _ _ => rfl, hstack, hinputs, htimers⟩
  rw [State.readMem_endOfTick]
  exact Memory.read_writeBytes_outside s.mem lo bs x hx

/-- A tick whose execute part loads registers from memory and writes I. -/
theorem loadRegs_keeps (ks : List RegIdx) (a : Word) (t : State) (ht : t = ((loadRegs s ks).setI a).endOfTick) :
    t.pc = s.pc + 2 ∧ MemKept s t ∧ StackKept s t ∧ InputsKept s t ∧ TimersStepped s.dt s.st s t := by
  obtain ⟨v, hv⟩ := loadRegs_rest s ks
  rw [hv] at ht
  have hkeeps := indexMemory_keeps s v a s.mem t ht
  subst ht
  exact ⟨State.endOfTick_pc _, memKept_endOfTick.2 fun _ => rfl, hkeeps⟩

end Transfer

/-! ## The results (R173, R174) -/

/-- 5 times a byte is at most 1275, so the 16-bit product is the exact one (R173). -/
theorem fontAddr_toNat (b : Byte) : (b.zeroExtend 16 * 5).toNat = b.toNat * 5 := by
  have := b.isLt
  bv_omega

/-- The digits of a byte as numbers: no digit is cut to 8 bits (R174). -/
theorem bcdDigits_toNat (b : Byte) :
    (bcdDigits b).map BitVec.toNat = [b.toNat / 100, b.toNat / 10 % 10, b.toNat % 10] := by
  simp [bcdDigits]

/-- After Fx33 in range, digit k is read at I + k. -/
theorem readMem_bcdStore {s : State} {b : Byte} {k : Nat} (h : s.i.toNat + 2 ≤ 0xFFF) (hk : k < 3) :
    ((s.setMem (Memory.writeBytes s.mem s.i.toNat (bcdDigits b))).endOfTick.readMem (s.i.toNat + k)).toNat =
      [b.toNat / 100, b.toNat / 10 % 10, b.toNat % 10].getD k 0 := by
  have hlen : (bcdDigits b).length = 3 := rfl
  rw [State.readMem_endOfTick, State.readMem, State.setMem_mem,
    Memory.read_writeBytes _ _ _ _ (by rw [hlen, Config.memSize]; omega), if_pos (by omega), Nat.add_sub_cancel_left,
    ← bcdDigits_toNat]
  exact (List.getD_map (bcdDigits b) 0 BitVec.toNat).symm

/-! ## The statements -/

/-- Settles O16: each is one write of I, of a value that 16 bits hold exactly. -/
theorem indexLoads : Obligations.IndexLoads := by
  intro x nnn s
  refine ⟨decode_encode (.ldI nnn) rfl, decode_encode (.ldFVx x) rfl,
    ⟨_, rfl, ?_, setI_keeps s (zext16 nnn) _ rfl⟩, ⟨_, rfl, ?_, setI_keeps s ((s.getV x).zeroExtend 16 * 5) _ rfl⟩⟩
  · rw [State.endOfTick_i, State.setI_i, zext16_toNat]
  · rw [State.endOfTick_i, State.setI_i, fontAddr_toNat]

/-- Settles O17: the two branches of the addition; a sum that fits is not reduced. -/
theorem addToIndexFaultsAbove16Bits : Obligations.AddToIndexFaultsAbove16Bits := by
  intro x s
  refine ⟨decode_encode (.addIVx x) rfl, fun h => ?_, execAddIVx_over x s⟩
  refine ⟨_, execAddIVx_fits x s h, ?_, setI_keeps s _ _ rfl⟩
  rw [State.endOfTick_i, State.setI_i, BitVec.toNat_ofNat]
  exact Nat.mod_eq_of_lt (by omega)

/-- Settles O18: the three digits are a store of three bytes at I. -/
theorem bcdStoresThreeDigits : Obligations.BcdStoresThreeDigits := by
  intro x s
  refine ⟨decode_encode (.ldBVx x) rfl, fun h => ?_, execLdBVx_out x s⟩
  obtain ⟨hmem, hpc, hrest⟩ := storeBytes_keeps s s.i.toNat (bcdDigits (s.getV x)) s.i _ rfl
  exact ⟨_, execLdBVx_in x s h, readMem_bcdStore (k := 0) h (by decide), readMem_bcdStore (k := 1) h (by decide),
    readMem_bcdStore (k := 2) h (by decide), hmem, hpc, State.endOfTick_i _, hrest⟩

/-- Settles O19: V0 to Vx are a store of x + 1 bytes at I, and I + x + 1 does not wrap. -/
theorem blockStoreWritesV0ToVx : Obligations.BlockStoreWritesV0ToVx := by
  intro x s
  refine ⟨decode_encode (.ldMemVx x) rfl, fun h => ?_, execLdMemVx_out x s⟩
  obtain ⟨hmem, hrest⟩ := storeBytes_keeps s s.i.toNat ((regsUpTo x).map s.getV) (s.indexPast x) _ rfl
  rw [List.length_map, regsUpTo_length] at hmem
  refine ⟨_, execLdMemVx_in x s h, fun k hk => ?_, hmem, ?_, hrest⟩
  · rw [State.readMem_endOfTick]
    exact read_blockStore h hk
  · rw [State.endOfTick_i, State.setI_i, s.indexPast_toNat x h]

/-- Settles O20: of the registers, V0 to Vx alone are loaded, and I + x + 1 does not wrap. -/
theorem blockLoadReadsV0ToVx : Obligations.BlockLoadReadsV0ToVx := by
  intro x s
  refine ⟨decode_encode (.ldVxMem x) rfl, fun h => ?_, execLdVxMem_out x s⟩
  refine ⟨_, execLdVxMem_in x s h, fun k hk => ?_, fun k hk => ?_, ?_, loadRegs_keeps s _ _ _ rfl⟩
  · rw [State.getV_endOfTick, State.getV_setI, getV_loadRegs, if_pos ((mem_regsUpTo x k).2 hk), State.dataAddr_eq]
  · rw [State.getV_endOfTick, State.getV_setI, getV_loadRegs, if_neg fun hmem => hk.not_ge ((mem_regsUpTo x k).1 hmem)]
  · rw [State.endOfTick_i, State.setI_i, s.indexPast_toNat x h]

end Sys2Proof.Machine
end

section
/-! The display (spec/44_display.md): which bits a pixel mask and the collision flag stand for, the state a draw leaves,
and what the ticks of CLS and DRW keep. -/

namespace Sys2Proof.Machine

/-! ## Bits of a byte -/

theorem and_ne_zero_iff (a b : Byte) : a &&& b ≠ 0 ↔ ∃ k, a.getLsbD k = true ∧ b.getLsbD k = true := by
  have hzero : a &&& b = 0 ↔ ∀ k, (a &&& b).getLsbD k = false := BitVec.zero_iff_eq_false
  rw [Ne, hzero]
  simp

/-- The mask of the k-th pixel from the left is a single bit (R190). -/
theorem pixelMask_eq_twoPow : ∀ k < 8, (0x80 : Byte) >>> k = BitVec.twoPow 8 (7 - k) := by decide

theorem getLsbD_iff_pixelMask (b : Byte) {k : Nat} (hk : k < 8) :
    b.getLsbD (7 - k) = true ↔ b &&& ((0x80 : Byte) >>> k) ≠ 0 := by
  rw [pixelMask_eq_twoPow k hk, and_ne_zero_iff]
  simp only [BitVec.getLsbD_twoPow, Bool.and_eq_true, decide_eq_true_eq]
  exact ⟨fun h => ⟨7 - k, h, by omega, rfl⟩, fun ⟨_, h, _, e⟩ => e ▸ h⟩

theorem flagByte_eq_one_iff (b : Bool) : flagByte b = 1 ↔ b = true := by
  cases b <;> decide

theorem flagByte_zero_or_one (b : Bool) : flagByte b = 0 ∨ flagByte b = 1 := by
  cases b
  · exact .inl rfl
  · exact .inr rfl

/-! ## The state a draw leaves (R191) -/

/-- The state after the first h rows of a draw from origin `o`: their display bytes, and the collision in VF. -/
def drawState (addr : Nat) (o : Origin) (h : Nat) (s : State) : State :=
  (s.setMem (drawRows addr o h s.mem).1).setV vf (flagByte (drawRows addr o h s.mem).2)

section DrawState

variable (addr : Nat) (o : Origin) (h : Nat) (s : State)

theorem readMem_drawState (a : Nat) : (drawState addr o h s).readMem a = Memory.read (drawRows addr o h s.mem).1 a := rfl

theorem getV_drawState_vf : (drawState addr o h s).getV 0xF = flagByte (drawRows addr o h s.mem).2 :=
  State.getV_setV_self _ vf _

theorem drawState_vf_eq_one_iff : (drawState addr o h s).getV 0xF = 1 ↔ (drawRows addr o h s.mem).2 = true := by
  rw [getV_drawState_vf, flagByte_eq_one_iff]

theorem drawState_vf_zero_or_one : (drawState addr o h s).getV 0xF = 0 ∨ (drawState addr o h s).getV 0xF = 1 := by
  rw [getV_drawState_vf]
  exact flagByte_zero_or_one _

theorem regsKept_drawState : RegsKeptExcept [0xF] s (drawState addr o h s) :=
  fun r hr => State.getV_setV_ne _ vf r _ (List.ne_of_not_mem_cons hr)

end DrawState

section Draw

variable {addr height : Nat} {x y : Byte} {s : State}

theorem draw_eq_drawState (h : min height (32 - y.toNat % 32) = 0 ∨ addr + min height (32 - y.toNat % 32) ≤ 0x1000) :
    draw addr x y height s = .done (drawState addr (wrapOrigin x y) (min height (32 - y.toNat % 32)) s) :=
  draw_in addr height x y s (h.imp_right fun h => by simp only [wrapOrigin, clipHeight]; omega)

/-- With no row to draw, draw is one register write (R196). -/
theorem draw_zero : draw addr x y 0 s = .done (s.setV vf 0) := by
  have h0 : min 0 (32 - y.toNat % 32) = 0 := Nat.zero_min _
  rw [draw_eq_drawState (.inl h0), h0]
  rfl

theorem draw_congr {height' : Nat} {x' y' : Byte} (ho : wrapOrigin x' y' = wrapOrigin x y)
    (hh : clipHeight (y.toNat % 32) height' = clipHeight (y.toNat % 32) height) :
    draw addr x' y' height' s = draw addr x y height s := by
  have hh' : clipHeight (wrapOrigin x y).y height' = clipHeight (wrapOrigin x y).y height := hh
  simp only [draw, ho, hh']

/-- An origin on the screen is its own wrap (R191 step 1). -/
theorem wrapOrigin_and (x y : Byte) : wrapOrigin (x &&& 0x3F) (y &&& 0x1F) = wrapOrigin x y := by
  have hx : (x &&& 0x3F).toNat = x.toNat % 64 := (BitVec.toNat_and ..).trans (Nat.and_two_pow_sub_one_eq_mod _ 6)
  have hy : (y &&& 0x1F).toNat = y.toNat % 32 := (BitVec.toNat_and ..).trans (Nat.and_two_pow_sub_one_eq_mod _ 5)
  simp only [wrapOrigin, hx, hy, Nat.mod_mod]

end Draw

/-- A draw changes only the display bytes of its rows. -/
theorem read_drawRows_of_not_drawWrites {x y : Byte} {h a : Nat} (addr : Nat) (m : Memory) (ha : ¬ drawWrites x y h a) :
    Memory.read (drawRows addr (wrapOrigin x y) h m).1 a = Memory.read m a :=
  read_drawRows_ne _ _ _ _ _ (fun r hr e => ha ⟨r, hr, .inl e⟩) fun r hr hs hc e => ha ⟨r, hr, .inr ⟨⟨hs, hc⟩, e⟩⟩

/-! ## The two instructions (R198, R199) -/

/-- The instruction wraps the origin as draw itself does. -/
theorem exec_drw (x y : RegIdx) (n : Nibble) (s : State) :
    exec (.drw x y n) s = finish s (draw s.i.toNat (s.getV x) (s.getV y) n.toNat s) :=
  congrArg (finish s) (draw_congr (wrapOrigin_and _ _) rfl)

theorem exec_drw_in {x y : RegIdx} {n : Nibble} {s : State}
    (h : drawnHeight s y n = 0 ∨ s.i.toNat + drawnHeight s y n ≤ 0x1000) : exec (.drw x y n) s =
      .next (drawState s.i.toNat (wrapOrigin (s.getV x) (s.getV y)) (drawnHeight s y n) s).endOfTick := by
  rw [exec_drw, draw_eq_drawState h]
  rfl

theorem exec_drw_out (x : RegIdx) {y : RegIdx} {n : Nibble} {s : State} (h0 : 0 < drawnHeight s y n)
    (h : 0x1000 < s.i.toNat + drawnHeight s y n) : exec (.drw x y n) s = .next (s.raiseFault .memoryOutOfRange) := by
  rw [exec_drw, draw_out _ _ _ _ _ h0 (Nat.lt_sub_of_add_lt h)]
  rfl

/-- A tick whose execute part writes memory alone. -/
theorem setMem_keeps (s : State) (m : Memory) (t : State) (ht : t = (s.setMem m).endOfTick) :
    t.pc = s.pc + 2 ∧ RegsKeptExcept [] s t ∧ t.i = s.i ∧ StackKept s t ∧ InputsKept s t ∧
      TimersStepped s.dt s.st s t := by
  have hrest := indexMemory_keeps s s.v s.i m t ht
  subst ht
  exact ⟨State.endOfTick_pc _, regsKeptExcept_endOfTick.2 fun _ _ => rfl, State.endOfTick_i _, hrest⟩

/-- Settles O22: CLS stores 256 zeros from 0xF00. -/
theorem clearScreenZeroesTheBitmap : Obligations.ClearScreenZeroesTheBitmap := by
  refine ⟨decode_encode .cls rfl, fun s => ⟨_, exec_cls s, fun a h1 h2 => ?_, ?_⟩⟩
  · rw [State.readMem_endOfTick, State.readMem, State.setMem_mem,
      Memory.read_writeBytes _ _ _ _ (by rw [blankScreen_length]; decide), blankScreen_length,
      if_pos (by rw [Config.screenBase]; omega), blankScreen_getD]
  · exact ⟨execCls_memKeptOutside (exec_cls s), setMem_keeps s _ _ rfl⟩

/-- Settles O23: the two branches of draw; in range, a tick that writes VF and the display bytes of the rows. -/
theorem drawCompletesAndKeepsTheRest : Obligations.DrawCompletesAndKeepsTheRest := by
  intro x y n s
  refine ⟨decode_encode (.drw x y n) rfl, fun h => ?_, exec_drw_out x⟩
  refine ⟨_, exec_drw_in h.symm, ?_, State.endOfTick_pc _, regsKeptExcept_endOfTick.2 (regsKept_drawState _ _ _ _),
    State.endOfTick_i _, fun a ha => ?_, indexMemory_keeps s _ s.i _ _ rfl⟩
  · rw [State.getV_endOfTick]
    exact drawState_vf_zero_or_one ..
  · rw [State.readMem_endOfTick]
    exact read_drawRows_of_not_drawWrites _ _ ha

/-- Settles O25: with no row to draw, DRW is one register write of 0 to VF. -/
theorem drawOfHeightZeroOnlyClearsVf : Obligations.DrawOfHeightZeroOnlyClearsVf := by
  intro x y s
  have he : exec (.drw x y 0) s = finish s (.done (s.setV vf 0)) := (exec_drw x y 0 s).trans (congrArg _ draw_zero)
  exact ⟨_, he, getV_endOfTick_setV s vf 0, State.endOfTick_pc _, onlyRegsAndPc_setV s vf 0⟩

/-! ## One row more (R191, R194) -/

/-- What row h adds to the h rows before it: the sprite byte is read from the state they left. -/
theorem drawState_succ (addr h : Nat) (x y : Byte) (s : State) (hh : y.toNat % 32 + h ≤ 31) :
    let t := drawState addr (wrapOrigin x y) h s
    let u := drawState addr (wrapOrigin x y) (h + 1) s
    let p := t.readMem (addr + h) >>> (x.toNat % 8)
    let q := t.readMem (addr + h) <<< (8 - x.toNat % 8)
    let a := rowByte x y h
    u.readMem a = t.readMem a ^^^ p ∧
    (rowSpills x → u.readMem (a + 1) = t.readMem (a + 1) ^^^ q) ∧
    (∀ b, b ≠ a → (rowSpills x → b ≠ a + 1) → u.readMem b = t.readMem b) ∧
    (u.getV 0xF = 1 ↔ t.getV 0xF = 1 ∨ t.readMem a &&& p ≠ 0 ∨ (rowSpills x ∧ t.readMem (a + 1) &&& q ≠ 0)) := by
  have hshift : (wrapOrigin x y).shift = x.toNat % 8 := Nat.mod_mod_of_dvd _ (by decide)
  obtain ⟨hcol, -, -⟩ := wrapOrigin_bounds x y
  have hread := fun a => read_drawRow addr (wrapOrigin x y) (drawRows addr (wrapOrigin x y) h s.mem) h a hcol hh
  simp only [drawState_vf_eq_one_iff, readMem_drawState, drawRows_succ, drawRow_hit, ← hshift]
  refine ⟨?_, fun hs => ?_, fun b h1 h2 => ?_, Iff.rfl⟩
  · exact (hread _).trans (if_pos rfl)
  · exact (hread _).trans ((if_neg (Nat.succ_ne_self _)).trans (if_pos ⟨hs, rfl⟩))
  · exact (hread _).trans ((if_neg h1).trans (if_neg fun h => h2 h.1 h.2))

/-- Settles O24: draw sees only the wrapped origin and the clipped height, and its rows are a fold. -/
theorem drawGoesRowByRow : Obligations.DrawGoesRowByRow := by
  intro addr height x y s
  refine ⟨(draw_congr (wrapOrigin_and x y) ?_).symm, ?_, fun hh haddr => ?_, draw_out addr height x y s⟩
  · rw [clipHeight, clipHeight, min_assoc, min_self]
  · exact ⟨_, draw_zero, State.getV_setV_self s vf 0, fun _ => rfl,
      fun r hr => State.getV_setV_ne s vf r 0 (List.ne_of_not_mem_cons hr)⟩
  · have ht : min height (32 - y.toNat % 32) = height := min_eq_left hh.le
    have hu : min (height + 1) (32 - y.toNat % 32) = height + 1 := min_eq_left hh
    obtain ⟨hfirst, hnext, hother, hvf⟩ := drawState_succ addr height x y s (by omega)
    refine ⟨_, _, draw_eq_drawState (by omega), draw_eq_drawState (by omega), ?_⟩
    rw [ht, hu]
    exact ⟨hfirst, hnext, hother, hvf, drawState_vf_zero_or_one .., regsKept_drawState _ _ _ _, rfl⟩

/-! ## What the host reads (R190, R200, R262) -/

/-- Settles O28: the mask of a pixel selects the bit `pixelOn` reads, and the display bytes are read in order. -/
theorem hostReadsPixelsAndSound : Obligations.HostReadsPixelsAndSound := by
  intro s
  refine ⟨fun px py _ _ => getLsbD_iff_pixelMask _ (Nat.mod_lt px (by decide)), fun k hk => ?_, ?_⟩
  · have hk' : k < Config.screenLen := hk
    simp only [State.displayBytes, List.getElem?_map, List.getElem?_range hk', Option.map_some]
    rfl
  · rw [State.soundActive, decide_eq_true_eq]
    exact Nat.pos_iff_ne_zero.trans (BitVec.toNat_ne (y := 0)).symm

end Sys2Proof.Machine
end

section
/-! A draw as one XOR (spec/44_display.md): the pattern that a draw whose sprite lies outside its own display bytes XORs
into memory, and that pattern as the pixels of the sprite. -/

namespace Sys2Proof.Machine

/-! ## The pattern a draw XORs into each byte -/

/-- What row r with sprite byte `sb` XORs into the byte at `a`. -/
def rowPattern (o : Origin) (sb : Byte) (r a : Nat) : Byte :=
  if a = Config.screenBase + o.col + (o.y + r) * 8 then sb >>> o.shift
  else if (o.shift ≠ 0 ∧ o.col < 7) ∧ a = Config.screenBase + o.col + (o.y + r) * 8 + 1 then sb <<< (8 - o.shift)
  else 0

/-- What rows 0 to h - 1 with sprite bytes `sb` XOR into the byte at `a`. -/
def spritePattern (o : Origin) (sb : Nat → Byte) : Nat → Nat → Byte
  | 0, _ => 0
  | h + 1, a => spritePattern o sb h a ^^^ rowPattern o (sb h) h a

section Pattern

variable {o : Origin}

theorem rowPattern_first (sb : Byte) (r : Nat) :
    rowPattern o sb r (Config.screenBase + o.col + (o.y + r) * 8) = sb >>> o.shift := if_pos rfl

theorem rowPattern_next (sb : Byte) (r : Nat) (hs : o.shift ≠ 0 ∧ o.col < 7) :
    rowPattern o sb r (Config.screenBase + o.col + (o.y + r) * 8 + 1) = sb <<< (8 - o.shift) :=
  (if_neg (Nat.succ_ne_self _)).trans (if_pos ⟨hs, rfl⟩)

/-- A row draws on its own line of the display. -/
theorem row_of_rowPattern_ne_zero {sb : Byte} {r a : Nat} (hc : o.col ≤ 7) (h : rowPattern o sb r a ≠ 0) :
    Config.screenBase ≤ a ∧ (a - Config.screenBase) / 8 = o.y + r := by
  rw [rowPattern] at h
  split_ifs at h with h1 h2
  · omega
  · obtain ⟨⟨-, h7⟩, h2⟩ := h2
    omega
  · exact absurd rfl h

theorem exists_row_of_spritePattern_ne_zero {sb : Nat → Byte} {h a : Nat} (hp : spritePattern o sb h a ≠ 0) :
    ∃ r < h, rowPattern o (sb r) r a ≠ 0 := by
  induction h with
  | zero => exact absurd rfl hp
  | succ h ih =>
    by_cases h0 : spritePattern o sb h a = 0
    · refine ⟨h, h.lt_succ_self, ?_⟩
      simpa [spritePattern, h0] using hp
    · obtain ⟨r, hr, hne⟩ := ih h0
      exact ⟨r, hr.trans h.lt_succ_self, hne⟩

/-- No byte is drawn on by two rows. -/
theorem spritePattern_or_rowPattern_eq_zero (hc : o.col ≤ 7) (sb : Nat → Byte) (h a : Nat) :
    spritePattern o sb h a = 0 ∨ rowPattern o (sb h) h a = 0 := by
  by_contra! hne
  obtain ⟨r, hr, hp⟩ := exists_row_of_spritePattern_ne_zero hne.1
  have h1 := row_of_rowPattern_ne_zero hc hp
  have h2 := row_of_rowPattern_ne_zero hc hne.2
  omega

theorem read_drawRow_eq_xor (addr : Nat) (acc : Memory × Bool) (r a : Nat) (hc : o.col ≤ 7) (hy : o.y + r ≤ 31) :
    Memory.read (drawRow addr o acc r).1 a = Memory.read acc.1 a ^^^ rowPattern o (Memory.read acc.1 (addr + r)) r a := by
  rw [read_drawRow addr o acc r a hc hy, rowPattern]
  split_ifs
  · rfl
  · rfl
  · exact BitVec.xor_zero.symm

theorem drawRow_hit_iff (addr : Nat) (acc : Memory × Bool) (r : Nat) : (drawRow addr o acc r).2 = true ↔
    acc.2 = true ∨ ∃ a, Memory.read acc.1 a &&& rowPattern o (Memory.read acc.1 (addr + r)) r a ≠ 0 := by
  rw [drawRow_hit]
  refine or_congr_right ⟨?_, fun ⟨a, ha⟩ => ?_⟩
  · rintro (h | ⟨hs, h⟩)
    · exact ⟨_, by rwa [rowPattern_first]⟩
    · exact ⟨_, by rwa [rowPattern_next _ _ hs]⟩
  · rw [rowPattern] at ha
    split_ifs at ha with h1 h2
    · exact .inl (h1 ▸ ha)
    · exact .inr ⟨h2.1, h2.2 ▸ ha⟩
    · exact absurd BitVec.and_zero ha

/-- Where only one of two patterns is drawn, the second meets a lit bit of what the first left or the first one of the
start exactly when their sum meets one of the start. -/
theorem and_xor_ne_zero_iff {m p q : Byte} (h : p = 0 ∨ q = 0) :
    m &&& (p ^^^ q) ≠ 0 ↔ m &&& p ≠ 0 ∨ (m ^^^ p) &&& q ≠ 0 := by
  rcases h with rfl | rfl <;> simp

end Pattern

section DrawRows

variable {addr h : Nat} {x y : Byte} {m : Memory}

theorem not_drawWrites_of_succ {a : Nat} (ha : ¬ drawWrites x y (h + 1) a) : ¬ drawWrites x y h a :=
  fun ⟨r, hr, e⟩ => ha ⟨r, hr.trans h.lt_succ_self, e⟩

/-- A draw that does not write over its own sprite XORs the sprite's pattern into memory, and collides exactly where the
pattern meets a lit bit of the memory it began with (R191, R195). -/
theorem drawRows_eq_xor {sb : Nat → Byte} (hh : y.toNat % 32 + h ≤ 32) (hsb : ∀ r < h, Memory.read m (addr + r) = sb r)
    (hw : ∀ r < h, ¬ drawWrites x y h (addr + r)) :
    (∀ a, Memory.read (drawRows addr (wrapOrigin x y) h m).1 a =
      Memory.read m a ^^^ spritePattern (wrapOrigin x y) sb h a) ∧
    ((drawRows addr (wrapOrigin x y) h m).2 = true ↔
      ∃ a, Memory.read m a &&& spritePattern (wrapOrigin x y) sb h a ≠ 0) := by
  obtain ⟨hcol, -, -⟩ := wrapOrigin_bounds x y
  induction h with
  | zero => exact ⟨fun a => BitVec.xor_zero.symm, by simp [drawRows, spritePattern]⟩
  | succ h ih =>
    obtain ⟨hread, hhit⟩ := ih (by omega) (fun r hr => hsb r (hr.trans h.lt_succ_self))
      fun r hr => not_drawWrites_of_succ (hw r (hr.trans h.lt_succ_self))
    have hbyte : Memory.read (drawRows addr (wrapOrigin x y) h m).1 (addr + h) = sb h :=
      (read_drawRows_of_not_drawWrites _ _ (not_drawWrites_of_succ (hw h h.lt_succ_self))).trans (hsb h h.lt_succ_self)
    rw [drawRows_succ]
    refine ⟨fun a => ?_, ?_⟩
    · rw [read_drawRow_eq_xor _ _ _ _ hcol (Nat.le_of_lt_succ hh), hbyte, hread, BitVec.xor_assoc, spritePattern]
    · simp only [drawRow_hit_iff, hhit, hbyte, hread, ← exists_or]
      exact exists_congr fun a => (and_xor_ne_zero_iff (spritePattern_or_rowPattern_eq_zero hcol sb h a)).symm

/-- `drawRows_eq_xor` of the states before and after, the collision bit by bit. -/
theorem drawState_eq_xor {s : State} {sb : Nat → Byte} (hh : y.toNat % 32 + h ≤ 32)
    (hsb : ∀ r < h, s.readMem (addr + r) = sb r) (hw : ∀ r < h, ¬ drawWrites x y h (addr + r)) :
    (∀ a, (drawState addr (wrapOrigin x y) h s).readMem a = s.readMem a ^^^ spritePattern (wrapOrigin x y) sb h a) ∧
    ((drawState addr (wrapOrigin x y) h s).getV 0xF = 1 ↔ ∃ a k, (s.readMem a).getLsbD k = true ∧
      (spritePattern (wrapOrigin x y) sb h a).getLsbD k = true) := by
  obtain ⟨hread, hhit⟩ := drawRows_eq_xor hh hsb hw
  exact ⟨hread, (drawState_vf_eq_one_iff ..).trans (hhit.trans (exists_congr fun a => and_ne_zero_iff _ _))⟩

end DrawRows

/-- Settles O27: both draws XOR the same pattern p, and p meets a lit bit of the memory the first leaves, b ^ p, exactly
where it turned on an unlit bit of b. -/
theorem drawTwiceRestoresTheBitmap : Obligations.DrawTwiceRestoresTheBitmap := by
  intro addr height x y s h hrange hw
  have hh : y.toNat % 32 + h ≤ 32 := by omega
  have hbyte : ∀ r < h, (drawState addr (wrapOrigin x y) h s).readMem (addr + r) = s.readMem (addr + r) :=
    fun r hr => read_drawRows_of_not_drawWrites _ _ (hw r hr)
  obtain ⟨hfirst, -⟩ := drawState_eq_xor hh (fun _ _ => rfl) hw
  obtain ⟨hsecond, hvf⟩ := drawState_eq_xor hh hbyte hw
  refine ⟨_, _, draw_eq_drawState hrange, draw_eq_drawState hrange, fun a => ?_, hvf.trans ?_⟩
  · rw [hsecond, hfirst, BitVec.xor_assoc, BitVec.xor_self, BitVec.xor_zero]
  · refine exists₂_congr fun a k => ?_
    rw [hfirst, BitVec.getLsbD_xor]
    cases (s.readMem a).getLsbD k <;> simp

/-! ## The pattern as pixels (R190) -/

section Pixels

variable {o : Origin} {px py : Nat}

/-- The pixels of one row: 8 from the origin, the leftmost in bit 7 of the sprite byte, none past column 63. -/
theorem rowPattern_pixel (sb : Byte) (r : Nat) (hc : o.col ≤ 7) (hs : o.shift ≤ 7) (hpx : px < 64) :
    (rowPattern o sb r (pixelAddr px py)).getLsbD (7 - px % 8) =
      (decide (o.col * 8 + o.shift ≤ px ∧ px < o.col * 8 + o.shift + 8 ∧ py = o.y + r) &&
        sb.getLsbD (7 - (px - (o.col * 8 + o.shift)))) := by
  rw [rowPattern, pixelAddr]
  split_ifs with h1 h2
  · rw [BitVec.getLsbD_ushiftRight]
    by_cases hge : o.shift ≤ px % 8
    · rw [decide_eq_true (by omega), Bool.true_and]
      congr 1
      omega
    · rw [decide_eq_false (by omega), Bool.false_and]
      exact BitVec.getLsbD_of_ge _ _ (by omega)
  · rw [BitVec.getLsbD_shiftLeft, decide_eq_true (by omega), Bool.true_and]
    by_cases hlt : px % 8 < o.shift
    · rw [decide_eq_false (by omega), decide_eq_true (by omega), Bool.not_false]
      congr 2
      omega
    · rw [decide_eq_true (by omega), decide_eq_false (by omega), Bool.not_true, Bool.false_and, Bool.false_and]
  · rw [decide_eq_false (by omega), Bool.false_and]
    exact BitVec.getLsbD_zero

theorem spritePattern_pixel (sb : Nat → Byte) (h : Nat) (hc : o.col ≤ 7) (hs : o.shift ≤ 7) (hpx : px < 64) :
    (spritePattern o sb h (pixelAddr px py)).getLsbD (7 - px % 8) =
      (decide (o.col * 8 + o.shift ≤ px ∧ px < o.col * 8 + o.shift + 8 ∧ o.y ≤ py ∧ py < o.y + h) &&
        (sb (py - o.y)).getLsbD (7 - (px - (o.col * 8 + o.shift)))) := by
  induction h with
  | zero =>
    rw [decide_eq_false (by omega), Bool.false_and]
    exact BitVec.getLsbD_zero
  | succ h ih =>
    rw [spritePattern, BitVec.getLsbD_xor, ih, rowPattern_pixel _ _ hc hs hpx]
    by_cases hrow : py = o.y + h
    · subst hrow
      simp
    · have hlt : py < o.y + (h + 1) ↔ py < o.y + h := by omega
      simp [hrow, hlt]

/-- Every bit of a byte of the bitmap is a pixel. -/
theorem exists_pixel {a k : Nat} (hlo : Config.screenBase ≤ a) (hhi : (a - Config.screenBase) / 8 < 32) (hk : k < 8) :
    ∃ px py, px < 64 ∧ py < 32 ∧ pixelAddr px py = a ∧ 7 - px % 8 = k :=
  ⟨(a - Config.screenBase) % 8 * 8 + (7 - k), (a - Config.screenBase) / 8, by omega, hhi, by rw [pixelAddr]; omega,
    by omega⟩

theorem exists_pixel_of_spritePattern {sb : Nat → Byte} {h a k : Nat} (hc : o.col ≤ 7) (hh : o.y + h ≤ 32)
    (hp : (spritePattern o sb h a).getLsbD k = true) :
    ∃ px py, px < 64 ∧ py < 32 ∧ pixelAddr px py = a ∧ 7 - px % 8 = k := by
  have hne : spritePattern o sb h a ≠ 0 := fun e => by simp [e] at hp
  obtain ⟨r, hr, hrow⟩ := exists_row_of_spritePattern_ne_zero hne
  obtain ⟨hlo, hline⟩ := row_of_rowPattern_ne_zero hc hrow
  exact exists_pixel hlo (by omega) (BitVec.lt_of_getLsbD hp)

end Pixels

/-- The sprite as a fixed pattern of pixels is the pattern of its clipped height: the rows clipped off lie below the
display (R192). -/
theorem spriteCovers_eq_pattern (s : State) (x y : RegIdx) (n : Nibble) {px py : Nat} (hpx : px < 64) (hpy : py < 32) :
    spriteCovers s x y n px py = (spritePattern (wrapOrigin (s.getV x) (s.getV y)) (fun r => s.readMem (s.i.toNat + r))
      (drawnHeight s y n) (pixelAddr px py)).getLsbD (7 - px % 8) := by
  obtain ⟨hc, hs, -⟩ := wrapOrigin_bounds (s.getV x) (s.getV y)
  have hx : (wrapOrigin (s.getV x) (s.getV y)).col * 8 + (wrapOrigin (s.getV x) (s.getV y)).shift =
      (s.getV x).toNat % 64 := Nat.div_add_mod' _ 8
  have hy : (wrapOrigin (s.getV x) (s.getV y)).y = (s.getV y).toNat % 32 := rfl
  have hclip : py < (s.getV y).toNat % 32 + drawnHeight s y n ↔ py < (s.getV y).toNat % 32 + n.toNat := by
    rw [drawnHeight]
    omega
  rw [spritePattern_pixel _ _ hc hs hpx, hx, hy]
  simp only [spriteCovers, hclip]

theorem drawWrites_ge {x y : Byte} {h a : Nat} (ha : drawWrites x y h a) : 0xF00 ≤ a := by
  obtain ⟨r, -, e | ⟨-, e⟩⟩ := ha <;> rw [rowByte] at e <;> omega

/-- Settles O26: the pattern the draw XORs into memory, read pixel by pixel, is the sprite. -/
theorem drawFlipsExactlyTheCoveredPixels : Obligations.DrawFlipsExactlyTheCoveredPixels := by
  intro x y n s hi
  have hn : drawnHeight s y n ≤ n.toNat := Nat.min_le_left _ _
  have hh : (s.getV y).toNat % 32 + drawnHeight s y n ≤ 32 := by rw [drawnHeight]; omega
  have hw : ∀ r < drawnHeight s y n, ¬ drawWrites (s.getV x) (s.getV y) (drawnHeight s y n) (s.i.toNat + r) :=
    fun r hr h => absurd (drawWrites_ge h) (by omega)
  obtain ⟨hread, hvf⟩ := drawState_eq_xor hh (fun _ _ => rfl) hw
  refine ⟨_, exec_drw_in (.inr (by omega)), fun px py hpx hpy => ?_, ?_, ?_⟩
  · rw [State.pixelOn, State.readMem_endOfTick, hread, BitVec.getLsbD_xor, spriteCovers_eq_pattern s x y n hpx hpy,
      State.pixelOn]
  · rw [State.getV_endOfTick, hvf]
    constructor
    · rintro ⟨a, k, hm, hp⟩
      obtain ⟨hc, -, -⟩ := wrapOrigin_bounds (s.getV x) (s.getV y)
      obtain ⟨px, py, hpx, hpy, rfl, rfl⟩ := exists_pixel_of_spritePattern hc hh hp
      exact ⟨px, py, hpx, hpy, hm, (spriteCovers_eq_pattern s x y n hpx hpy).trans hp⟩
    · rintro ⟨px, py, hpx, hpy, hm, hp⟩
      exact ⟨_, _, hm, (spriteCovers_eq_pattern s x y n hpx hpy).symm.trans hp⟩
  · rw [State.getV_endOfTick]
    exact drawState_vf_zero_or_one ..

end Sys2Proof.Machine
end

section
/-! Timers and keys (spec/45_timers_keys.md): what a write of the timers leaves unchanged, ten timer-divider steps from
any phase of TC, the lookup of the lowest key down, and which instructions KEYS and SCHIP can matter to. -/

namespace Sys2Proof.Machine

/-! ## The timer instructions (R210, R211, R212) -/

/-- A tick whose execute part writes the timers alone. -/
theorem setTimers_keeps (s : State) (dt st : Byte) (t : State)
    (ht : t = State.endOfTick { s with dt := dt, st := st }) :
    TimersStepped dt st s t ∧ t.pc = s.pc + 2 ∧ RegsKeptExcept [] s t ∧ t.i = s.i ∧ StackKept s t ∧ MemKept s t ∧
      InputsKept s t := by
  subst ht
  exact ⟨timersStepped_endOfTick rfl, State.endOfTick_pc _, regsKeptExcept_endOfTick.2 fun _ _ => rfl,
    State.endOfTick_i _, stackKept_endOfTick.2 ⟨rfl, rfl⟩, memKept_endOfTick.2 fun _ => rfl,
    inputsKept_endOfTick.2 ⟨rfl, rfl, rfl, rfl⟩⟩

/-- Settles O29: the execute part comes before the timer-divider step, so Fx07 reads the timer before it and Fx15 and
Fx18 write the timer it starts from. -/
theorem timerReadsAndWrites : Obligations.TimerReadsAndWrites := by
  intro x s
  exact ⟨decode_encode (.ldVxDt x) rfl, decode_encode (.ldDtVx x) rfl, decode_encode (.ldStVx x) rfl,
    ⟨_, rfl, getV_endOfTick_setV s x s.dt, State.endOfTick_pc _, onlyRegsAndPc_setV s x s.dt⟩,
    ⟨_, exec_ldDtVx x s, setTimers_keeps s (s.getV x) s.st _ rfl⟩,
    ⟨_, exec_ldStVx x s, setTimers_keeps s s.dt (s.getV x) _ rfl⟩⟩

/-! ## The wait for a key (R213, R220) -/

theorem State.getKeyPressed_eq_some {s : State} {k : RegIdx} (hk : s.keyDown k = true)
    (hlow : ∀ j : RegIdx, j.toNat < k.toNat → s.keyDown j = false) : s.getKeyPressed = some k := by
  rcases s.getKeyPressed_cases with ⟨m, he, hm, hmlow⟩ | ⟨-, hup⟩
  · have hmk : ¬ m.toNat < k.toNat := fun h => Bool.false_ne_true ((hlow m h).symm.trans hm)
    have hkm : ¬ k.toNat < m.toNat := fun h => Bool.false_ne_true ((hmlow k h).symm.trans hk)
    rw [he, BitVec.eq_of_toNat_eq (show m.toNat = k.toNat by omega)]
  · exact absurd ((hup k).symm.trans hk) Bool.false_ne_true

theorem State.getKeyPressed_eq_none {s : State} (h : NoKeyDown s) : s.getKeyPressed = none := by
  rcases s.getKeyPressed_cases with ⟨k, -, hk, -⟩ | ⟨he, -⟩
  · exact absurd ((h k).symm.trans hk) Bool.false_ne_true
  · exact he

/-- Settles O30: the lookup's two answers are the two ways Fx0A ends. -/
theorem waitForKeyStoresTheLowestOrFreezes : Obligations.WaitForKeyStoresTheLowestOrFreezes := by
  intro x s
  refine ⟨decode_encode (.ldVxK x) rfl, fun k hk hlow => ?_, fun hup => ?_⟩
  · have he : s.getKeyPressed = some k := State.getKeyPressed_eq_some hk hlow
    refine ⟨he, _, execLdVxK_down x k s he, ?_, State.endOfTick_pc _, onlyRegsAndPc_setV s x (k.zeroExtend 8)⟩
    rw [getV_endOfTick_setV]
    exact BitVec.toNat_setWidth_of_le (by decide)
  · have he := State.getKeyPressed_eq_none hup
    exact ⟨he, execLdVxK_up x s he⟩

/-! ## The timer-divider step (R216, R217) -/

/-- The step starts from the timers it finds: the end of a tick differs from it in PC alone. -/
theorem timersStepped_timerDividerStep (s : State) : TimersStepped s.dt s.st s s.timerDividerStep := by
  have h : TimersStepped s.dt s.st s s.endOfTick := timersStepped_endOfTick rfl
  rwa [TimersStepped, State.endOfTick_tc, State.endOfTick_dt, State.endOfTick_st, ← State.timerDividerStep_tc,
    ← State.timerDividerStep_dt, ← State.timerDividerStep_st] at h

/-- Settles O31: the step writes TC, DT and ST alone. -/
theorem timerDividerStepRule : Obligations.TimerDividerStepRule := by
  intro s
  exact ⟨timersStepped_timerDividerStep s, s.timerDividerStep_pc, fun r _ => State.getV_congr s.timerDividerStep_v r,
    s.timerDividerStep_i, ⟨s.timerDividerStep_sp, s.timerDividerStep_stack⟩,
    fun a => congrArg (Memory.read · a) s.timerDividerStep_mem,
    s.timerDividerStep_keys, s.timerDividerStep_schip, s.timerDividerStep_fault, s.timerDividerStep_draws⟩

/-- As long as TC does not run out, the steps count it down and leave the timers. -/
theorem timerDividerStep_iterate_of_le (s : State) (n : Nat) (h : n ≤ s.tc.val) :
    (State.timerDividerStep^[n] s).tc.val + n = s.tc.val ∧ (State.timerDividerStep^[n] s).dt = s.dt ∧
      (State.timerDividerStep^[n] s).st = s.st := by
  induction n with
  | zero => exact ⟨rfl, rfl, rfl⟩
  | succ n ih =>
    obtain ⟨htc, hdt, hst⟩ := ih (by omega)
    obtain ⟨htc', hdt', hst'⟩ := (timersStepped_timerDividerStep (State.timerDividerStep^[n] s)).2 (by omega)
    rw [Function.iterate_succ_apply']
    exact ⟨by omega, hdt'.trans hdt, hst'.trans hst⟩

/-- Ten steps from any phase: TC runs down to 0, one step starts it afresh, and the rest bring it back. -/
theorem timerDividerStep_iterate_ten (s : State) : State.timerDividerStep^[10] s =
    State.timerDividerStep^[9 - s.tc.val] (State.timerDividerStep^[s.tc.val] s).timerDividerStep := by
  rw [← Function.iterate_succ_apply' State.timerDividerStep, ← Function.iterate_add_apply]
  exact congrArg (State.timerDividerStep^[·] s) (by omega)

/-- Settles O32: of the ten steps the one from TC = 0 alone counts the timers down. -/
theorem tenTimerStepsCountDownOnce : Obligations.TenTimerStepsCountDownOnce := by
  intro s
  obtain ⟨htc, hdt, hst⟩ := timerDividerStep_iterate_of_le s s.tc.val le_rfl
  obtain ⟨htc', hdt', hst'⟩ := (timersStepped_timerDividerStep (State.timerDividerStep^[s.tc.val] s)).1 (by omega)
  obtain ⟨htc'', hdt'', hst''⟩ := timerDividerStep_iterate_of_le
    (State.timerDividerStep^[s.tc.val] s).timerDividerStep (9 - s.tc.val) (by omega)
  rw [timerDividerStep_iterate_ten]
  exact ⟨Fin.ext (by omega), by rw [hdt'', hdt', hdt], by rw [hst'', hst', hst]⟩

/-! ## Inputs an instruction does not read (R218, R250, R252) -/

/-- The instructions whose execute part reads the keys (R218). -/
def readsKeys (i : Instr) : Prop := ∃ x, i = .skp x ∨ i = .sknp x ∨ i = .ldVxK x

/-- The instructions whose execute part reads the schip flag (R150, R152). -/
def readsSchip (i : Instr) : Prop := ∃ x y, i = .shrReg x y ∨ i = .shlReg x y

/-- The state with KEYS and SCHIP, which every tick keeps (R26, R29), changed. -/
def State.mapInputs (f : Vector Bool 16 → Vector Bool 16) (g : Bool → Bool) (s : State) : State :=
  { s with keys := f s.keys, schip := g s.schip }

/-- The execute part with the state it leaves changed. -/
def Executed.map (f : State → State) : Executed → Executed
  | .done s => .done (f s)
  | .wait => .wait
  | .raise k => .raise k

section MapInputs

variable (f : Vector Bool 16 → Vector Bool 16) (g : Bool → Bool) (s : State)

theorem mapInputs_endOfTick : s.endOfTick.mapInputs f g = (s.mapInputs f g).endOfTick :=
  apply_ite (State.mapInputs f g) (s.tc = 0) _ _

theorem mapNext_endOfTick :
    mapNext (State.mapInputs f g) (.next s.endOfTick) = .next (s.mapInputs f g).endOfTick :=
  congrArg Host.Outcome.next (mapInputs_endOfTick f g s)

theorem mapNext_setMem (m : Memory) : mapNext (State.mapInputs f g) (.next (s.setMem m).endOfTick) =
    .next ((s.mapInputs f g).setMem m).endOfTick :=
  mapNext_endOfTick f g (s.setMem m)

/-- A tick does with changed inputs what it does without, when its execute part does. -/
theorem mapNext_finish {r r' : Executed} (h : r.map (State.mapInputs f g) = r') :
    mapNext (State.mapInputs f g) (finish s r) = finish (s.mapInputs f g) r' := by
  subst h
  cases r with
  | done u => exact mapNext_endOfTick f g u
  | wait => rfl
  | raise k => rfl

theorem map_skipIf (c : Bool) : (skipIf c s).map (State.mapInputs f g) = skipIf c (s.mapInputs f g) := by
  cases c with
  | true => rfl
  | false => rfl

theorem map_draw (addr height : Nat) (x y : Byte) :
    (draw addr x y height s).map (State.mapInputs f g) = draw addr x y height (s.mapInputs f g) :=
  apply_ite (Executed.map (State.mapInputs f g)) _ _ _

theorem mapInputs_loadRegs (ks : List RegIdx) :
    (loadRegs s ks).mapInputs f g = loadRegs (s.mapInputs f g) ks :=
  (List.foldl_hom (State.mapInputs f g) fun _ _ => rfl).symm

theorem mapNext_execRet : mapNext (State.mapInputs f g) (execRet s) = execRet (s.mapInputs f g) := by
  rcases Nat.eq_zero_or_pos s.sp.val with h | h
  · rw [execRet_empty s h, execRet_empty (s.mapInputs f g) h]
    rfl
  · obtain ⟨_, he⟩ := execRet_full s h
    obtain ⟨_, he'⟩ := execRet_full (s.mapInputs f g) h
    rw [he, he']
    exact mapNext_endOfTick f g _

theorem mapNext_execCall (nnn : Addr12) :
    mapNext (State.mapInputs f g) (execCall nnn s) = execCall nnn (s.mapInputs f g) := by
  rcases s.push_cases s.pc with ⟨h, -⟩ | ⟨h, -⟩
  · rw [execCall_room nnn s h, execCall_room nnn (s.mapInputs f g) h]
    exact mapNext_endOfTick f g _
  · rw [execCall_full nnn s h, execCall_full nnn (s.mapInputs f g) h]
    rfl

theorem mapNext_execLdVxMem (x : RegIdx) :
    mapNext (State.mapInputs f g) (execLdVxMem x s) = execLdVxMem x (s.mapInputs f g) := by
  rcases Nat.lt_or_ge 0xFFF (s.i.toNat + x.toNat) with h | h
  · rw [execLdVxMem_out x s h, execLdVxMem_out x (s.mapInputs f g) h]
    rfl
  · rw [execLdVxMem_in x s h, execLdVxMem_in x (s.mapInputs f g) h, ← mapInputs_loadRegs]
    exact mapNext_endOfTick f g _

/-- With the keys as they are, Fx0A looks up the same key. -/
theorem mapNext_execLdVxK (x : RegIdx) :
    mapNext (State.mapInputs id g) (execLdVxK x s) = execLdVxK x (s.mapInputs id g) := by
  cases h : s.getKeyPressed with
  | some k =>
    rw [execLdVxK_down x k s h, execLdVxK_down x k (s.mapInputs id g) h]
    exact mapNext_endOfTick id g _
  | none =>
    rw [execLdVxK_up x s h, execLdVxK_up x (s.mapInputs id g) h]
    rfl

/-- A change of the inputs an instruction does not read changes nothing it does. -/
theorem exec_mapInputs (i : Instr) (hf : readsKeys i → f = id) (hg : readsSchip i → g = id) :
    exec i (s.mapInputs f g) = mapNext (State.mapInputs f g) (exec i s) := by
  symm
  cases i
  case cls => exact mapNext_setMem f g s _
  case sys | nop5 | nop8 | nop9 | nopE | nopF | jp | jpV0 | ldI | ldFVx | ldDtVx | ldStVx | ldVxDt | ldImm | addImm
      | ldReg | orReg | andReg | xorReg | addReg | subReg | subnReg | rnd =>
    exact mapNext_endOfTick f g _
  case addIVx | ldBVx | ldMemVx => exact mapNext_finish f g s (apply_ite (Executed.map _) _ _ _)
  case seImm | sneImm | seReg | sneReg => exact mapNext_finish f g s (map_skipIf f g s _)
  case drw => exact mapNext_finish f g s (map_draw f g s _ _ _ _)
  case ret => exact mapNext_execRet f g s
  case call nnn => exact mapNext_execCall f g s nnn
  case ldVxMem x => exact mapNext_execLdVxMem f g s x
  case shrReg x y =>
    obtain rfl := hg ⟨x, y, .inl rfl⟩
    exact mapNext_endOfTick f id _
  case shlReg x y =>
    obtain rfl := hg ⟨x, y, .inr rfl⟩
    exact mapNext_endOfTick f id _
  case skp x =>
    obtain rfl := hf ⟨x, .inl rfl⟩
    exact mapNext_finish id g s (map_skipIf id g s _)
  case sknp x =>
    obtain rfl := hf ⟨x, .inr (.inl rfl)⟩
    exact mapNext_finish id g s (map_skipIf id g s _)
  case ldVxK x =>
    obtain rfl := hf ⟨x, .inr (.inr rfl)⟩
    exact mapNext_execLdVxK g s x

end MapInputs

/-- Settles O48: the change of the keys alone, before an instruction that does not read them. -/
theorem keysMatterOnlyToKeyInstructions : Obligations.KeysMatterOnlyToKeyInstructions := by
  intro i s ks hi
  refine exec_mapInputs (fun _ => ks) id s i ?_ fun _ => rfl
  rintro ⟨x, hx⟩
  obtain ⟨hskp, hsknp, hldVxK⟩ := hi x
  tauto

end Sys2Proof.Machine
end

section
/-! The no-op spaces (spec/46_reserved_noops.md): which sub-opcodes of group 8 are unused, and the tick of a no-op. -/

namespace Sys2Proof

/-- The sub-opcodes of group 8 that select an instruction are 0 to 7 and 0xE (R76). -/
theorem not_mem_aluSubOps {n : Nibble} (h : 7 < n.toNat) (hE : n ≠ 0xE) : n ∉ aluSubOps := by
  have hused : ∀ m ∈ aluSubOps, m.toNat ≤ 7 ∨ m = 0xE := by decide
  intro hn
  rcases hused n hn with hle | rfl
  · exact absurd h hle.not_gt
  · exact hE rfl

namespace Machine

/-- The execute part of a no-op does nothing, so its tick is the end of tick alone (R79, R100). -/
theorem noOp_onlyAdvances (s : State) : ∃ t, noOp s = .next t ∧ t.pc = s.pc + 2 ∧ OnlyRegsAndPc [] s t :=
  ⟨s.endOfTick, rfl, s.endOfTick_pc, onlyRegsAndPc_of_regs s (v := s.v) fun _ _ => rfl⟩

/-- Settles O33: the fields given make each a well-formed instruction, whose word decodes to it, and the execute part of
each is `noOp`. -/
theorem noOpWordsOnlyAdvance : Obligations.NoOpWordsOnlyAdvance := by
  intro nnn x y n kk s
  refine ⟨fun hcls hret => ?_, fun hn => ?_, fun hn hE => ?_, fun hn => ?_, fun hskp hsknp => ?_, fun hkk => ?_,
    fun i hi => ?_⟩
  · exact decode_encode (.sys nnn) (Instr.wellFormed_sys.2 ⟨hcls, hret⟩)
  · exact decode_encode (.nop5 x y n) (Instr.wellFormed_nop5.2 hn)
  · exact decode_encode (.nop8 x y n) (Instr.wellFormed_nop8.2 (not_mem_aluSubOps hn hE))
  · exact decode_encode (.nop9 x y n) (Instr.wellFormed_nop9.2 hn)
  · exact decode_encode (.nopE x kk) (Instr.wellFormed_nopE.2 (by simpa [keySubOps] using ⟨hskp, hsknp⟩))
  · exact decode_encode (.nopF x kk) (Instr.wellFormed_nopF.2 hkk)
  · simp only [List.mem_cons, List.not_mem_nil, or_false] at hi
    rcases hi with rfl | rfl | rfl | rfl | rfl | rfl <;> exact noOp_onlyAdvances s

end Machine
end Sys2Proof
end

section
/-! Faults and what the host may rely on (spec/60_exceptions.md): which ticks mark a fault, what stays as it was from then
on, the jump to itself that ends a test program, and the actions of the host. -/

namespace Sys2Proof.Machine

/-! ## Fault entry (R244, R245) -/

/-- A tick that advances keeps the fault mark: of the ends of a tick only fault entry sets it. -/
theorem EffectOf.endOfTick_fault_eq {i : Instr} {s u : State} (h : EffectOf i s u) : u.endOfTick.fault = s.fault := by
  obtain ⟨-, -, hfault, -⟩ := h.untouched
  rw [State.endOfTick_fault, hfault]

/-- A step that ends with a fault marked has changed the mark alone. -/
theorem step_eq_raiseFault {s t : State} {k : Fault} (hf : s.fault = none) (h : step s = .next t)
    (hk : t.fault = some k) : t = s.raiseFault k := by
  cases step_execEnds h with
  | advance hu => exact absurd (hk.symm.trans (hu.endOfTick_fault_eq.trans hf)) (Option.some_ne_none k)
  | wait => exact absurd (hk.symm.trans hf) (Option.some_ne_none k)
  | fault k' =>
    rw [State.raiseFault_fault] at hk
    injection hk with hk
    rw [hk]

theorem tick_faulted {s : State} {k : Fault} (h : s.fault = some k) : tick s = (.faulted k, s) := by
  rw [tick, step_faulted h]

/-- Settles O35: fault entry is the one end of a tick that sets the mark, and the tick's result is read off it. -/
theorem faultEntryChangesOnlyTheMark : Obligations.FaultEntryChangesOnlyTheMark := by
  refine ⟨fun s t k hf h hk => ⟨step_eq_raiseFault hf h hk, ?_⟩, fun s k => tick_faulted⟩
  rw [tick_eq h, (resultOf_faulted s t k).2 hk]

/-- Settles O36: a faulted state is a fixed point of the tick. -/
theorem faultedCoreNeverSteps : Obligations.FaultedCoreNeverSteps := by
  intro s k h
  have hfix : (tick s).2 = s := congrArg Prod.snd (tick_faulted h)
  refine ⟨fun t ht => ?_, step_faulted h, Function.iterate_fixed hfix⟩
  cases (step_faulted h).symm.trans ht

/-! ## The causes of R241 -/

/-- The instructions the table of R241 lists a fault for. -/
def mayFault (i : Instr) : Prop :=
  i = .ret ∨ (∃ nnn, i = .call nnn) ∨ (∃ x y n, i = .drw x y n) ∨
    ∃ x, i = .addIVx x ∨ i = .ldBVx x ∨ i = .ldMemVx x ∨ i = .ldVxMem x

/-- An instruction outside the table never raises a fault. -/
theorem exec_keepsFault_of_not_mayFault {i : Instr} (s : State) (hi : ¬ mayFault i) :
    ∃ t, exec i s = .next t ∧ t.fault = s.fault := by
  cases i
  case sys | nop5 | nop8 | nop9 | nopE | nopF | jp | jpV0 | ldI | ldFVx | ldDtVx | ldStVx | ldVxDt | ldImm
      | addImm | ldReg | orReg | andReg | xorReg | addReg | subReg | shrReg | subnReg | shlReg | rnd =>
    exact ⟨_, rfl, State.endOfTick_fault _⟩
  case cls => exact ⟨_, exec_cls s, by rw [State.endOfTick_fault, State.setMem_fault]⟩
  case seImm | sneImm | seReg | sneReg | skp | sknp =>
    exact ⟨_, congrArg (finish s) (skipIf_eq_setPc _ s), State.endOfTick_fault _⟩
  case ldVxK x =>
    cases h : s.getKeyPressed with
    | some k => exact ⟨_, execLdVxK_down x k s h, State.endOfTick_fault _⟩
    | none => exact ⟨_, execLdVxK_up x s h, rfl⟩
  case ret | call | drw | addIVx | ldBVx | ldMemVx | ldVxMem => simp [mayFault] at hi

section Causes

variable {s : State}

/-- A cause of the table makes the step enter the fault state of its kind. -/
theorem step_of_faultCause {k : Fault} (hf : s.fault = none) (h : FaultCause s k) :
    step s = .next (s.raiseFault k) := by
  cases k with
  | fetchOutOfRange => exact step_fetch_error hf h
  | memoryOutOfRange =>
    obtain ⟨hpc, h⟩ := h
    rw [step_eq_exec hf hpc]
    rcases h with ⟨x, hi, h⟩ | ⟨x, hi, h⟩ | ⟨x, hi, h⟩ | ⟨x, y, n, hi, h0, h⟩
    · rw [hi]
      exact execLdBVx_out x s h
    · rw [hi]
      exact execLdMemVx_out x s h
    · rw [hi]
      exact execLdVxMem_out x s h
    · rw [hi]
      exact exec_drw_out x h0 (by omega)
  | stackOverflow =>
    obtain ⟨hpc, ⟨nnn, hi⟩, h⟩ := h
    rw [step_eq_exec hf hpc, hi]
    exact execCall_full nnn s h
  | stackUnderflow =>
    obtain ⟨hpc, hi, h⟩ := h
    rw [step_eq_exec hf hpc, hi]
    exact execRet_empty s h
  | indexOverflow =>
    obtain ⟨hpc, x, hi, h⟩ := h
    rw [step_eq_exec hf hpc, hi]
    exact execAddIVx_over x s h

/-- Without a cause of the table the instruction at PC completes, or waits, and marks nothing. -/
theorem exec_keepsFault_of_no_faultCause (hpc : s.pc.toNat ≤ 0xFFE) (h : ∀ k, ¬ FaultCause s k) :
    ∃ t, exec s.instrAtPc s = .next t ∧ t.fault = s.fault := by
  have hmem := h .memoryOutOfRange
  by_cases hi : mayFault s.instrAtPc
  · rcases hi with hi | ⟨nnn, hi⟩ | ⟨x, y, n, hi⟩ | ⟨x, hi | hi | hi | hi⟩
    · have hsp : s.sp.val ≠ 0 := fun e => h .stackUnderflow ⟨hpc, hi, e⟩
      obtain ⟨_, he⟩ := execRet_full s (Nat.pos_of_ne_zero hsp)
      rw [hi]
      exact ⟨_, he, State.endOfTick_fault _⟩
    · have hsp : s.sp.val ≠ 20 := fun e => h .stackOverflow ⟨hpc, ⟨nnn, hi⟩, e⟩
      have hroom : s.sp.val < Config.stackDepth := Nat.lt_of_le_of_ne (Nat.le_of_lt_succ s.sp.isLt) hsp
      rw [hi]
      exact ⟨_, execCall_room nnn s hroom, State.endOfTick_fault _⟩
    · have hin : ¬ (0 < drawnHeight s y n ∧ 0xFFF < s.i.toNat + drawnHeight s y n - 1) := fun e =>
        hmem ⟨hpc, .inr (.inr (.inr ⟨x, y, n, hi, e⟩))⟩
      rw [hi]
      exact ⟨_, exec_drw_in (by omega), State.endOfTick_fault _⟩
    · have hsum := fun e => h .indexOverflow ⟨hpc, x, hi, e⟩
      rw [hi]
      exact ⟨_, execAddIVx_fits x s (Nat.le_of_not_lt hsum), State.endOfTick_fault _⟩
    · have hin := fun e => hmem ⟨hpc, .inl ⟨x, hi, e⟩⟩
      rw [hi]
      exact ⟨_, execLdBVx_in x s (Nat.le_of_not_lt hin), State.endOfTick_fault _⟩
    · have hin := fun e => hmem ⟨hpc, .inr (.inl ⟨x, hi, e⟩)⟩
      rw [hi]
      exact ⟨_, execLdMemVx_in x s (Nat.le_of_not_lt hin), State.endOfTick_fault _⟩
    · have hin := fun e => hmem ⟨hpc, .inr (.inr (.inl ⟨x, hi, e⟩))⟩
      obtain ⟨v, hv⟩ := loadRegs_rest s (regsUpTo x)
      rw [hi]
      refine ⟨_, execLdVxMem_in x s (Nat.le_of_not_lt hin), ?_⟩
      rw [hv]
      exact State.endOfTick_fault _
  · exact exec_keepsFault_of_not_mayFault s hi

theorem step_of_no_faultCause (hf : s.fault = none) (h : ∀ k, ¬ FaultCause s k) :
    ∃ t, step s = .next t ∧ t.fault = none := by
  have hpc : s.pc.toNat ≤ 0xFFE := Nat.le_of_not_lt (h .fetchOutOfRange)
  rw [step_eq_exec hf hpc, ← hf]
  exact exec_keepsFault_of_no_faultCause hpc h

/-- The step has one outcome, so at most one cause holds. -/
theorem faultCause_unique {k k' : Fault} (hf : s.fault = none) (h : FaultCause s k) (h' : FaultCause s k') :
    k = k' := by
  have he : Host.Outcome.next (s.raiseFault k) = Host.Outcome.next (s.raiseFault k') :=
    (step_of_faultCause hf h).symm.trans (step_of_faultCause hf h')
  injection he with he
  exact Option.some.inj (congrArg State.fault he)

theorem step_fault_iff {t : State} (hf : s.fault = none) (h : step s = .next t) (k : Fault) :
    t.fault = some k ↔ FaultCause s k := by
  constructor
  · intro hk
    by_contra hno
    by_cases hcause : ∃ k', FaultCause s k'
    · obtain ⟨k', hk'⟩ := hcause
      cases h.symm.trans (step_of_faultCause hf hk')
      cases hk
      exact hno hk'
    · obtain ⟨u, hu, hfault⟩ := step_of_no_faultCause hf (not_exists.1 hcause)
      cases h.symm.trans hu
      simp [hfault] at hk
  · intro hk
    cases h.symm.trans (step_of_faultCause hf hk)
    rfl

end Causes

/-- Settles O37: a cause makes the step enter the fault state, and without one the instruction keeps the mark. -/
theorem faultsExactlyWhenTheTableSays : Obligations.FaultsExactlyWhenTheTableSays := by
  intro s hf
  obtain ⟨t, ht⟩ := step_next hf
  exact ⟨⟨t, ht, step_fault_iff hf ht, fun k hk => step_eq_raiseFault hf ht hk⟩, fun k k' => faultCause_unique hf⟩

/-! ## The jump to itself (R264) -/

/-- Where PC is the jump's own target, the tick of the jump is the timer-divider step alone. -/
theorem exec_jp_self {nnn : Addr12} {s : State} (h : s.pc.toNat = nnn.toNat) :
    exec (.jp nnn) s = .next s.timerDividerStep := by
  have hpc : jumpPc (zext16 nnn) + 2 = s.pc :=
    (BitVec.sub_add_cancel _ 2).trans (BitVec.eq_of_toNat_eq ((zext16_toNat nnn).trans h.symm))
  have hstay : (s.setPc (jumpPc (zext16 nnn))).advancePc = s := congrArg s.setPc hpc
  exact congrArg (fun u => Host.Outcome.next u.timerDividerStep) hstay

/-- The timer-divider step changes TC, DT and ST alone (R216). -/
theorem timerDividerStep_eq (s : State) : s.timerDividerStep =
    { s with tc := s.timerDividerStep.tc, dt := s.timerDividerStep.dt, st := s.timerDividerStep.st } := by
  unfold State.timerDividerStep
  split
  · rfl
  · rfl

theorem atSelfLoop_timerDividerStep {s : State} (h : AtSelfLoop s) : AtSelfLoop s.timerDividerStep := by
  rw [timerDividerStep_eq]
  exact h

/-- Settles O40: the jump makes up for the PC advance, so the timers alone go on. -/
theorem selfLoopOnlyRunsTheTimers : Obligations.SelfLoopOnlyRunsTheTimers := by
  intro s h
  obtain ⟨hf, nnn, hi, hpc, hfetch⟩ := h
  refine ⟨s.timerDividerStep, ?_, atSelfLoop_timerDividerStep ⟨hf, nnn, hi, hpc, hfetch⟩, timerDividerStep_eq s⟩
  rw [step_eq_exec hf hfetch, hi, exec_jp_self hpc]

/-! ## The shift mode (R252) -/

/-- Settles O47: the change of the schip flag alone, before an instruction that does not read it. -/
theorem schipMattersOnlyToShifts : Obligations.SchipMattersOnlyToShifts := by
  intro i s b hshr hshl
  refine exec_mapInputs id (fun _ => b) s i (fun _ => rfl) ?_
  rintro ⟨x, y, hi | hi⟩
  · exact absurd hi (hshr x y)
  · exact absurd hi (hshl x y)

/-! ## The actions of the host (R263) -/

section HostActions

variable {s : State}

theorem inv_setMem {m : Memory} (h : Inv s) (hm : Memory.wf m = true) : Inv (s.setMem m) :=
  ⟨hm, h.pcRange, h.stackRange⟩

theorem inv_setKeys (ks : Vector Bool 16) (h : Inv s) : Inv (s.setKeys ks) :=
  ⟨h.memory, h.pcRange, h.stackRange⟩

theorem inv_loadFont (font : Vector Byte 80) (h : Inv s) : Inv (s.loadFont font) :=
  inv_setMem h (Memory.wf_writeBytes _ _ _ h.memory)

theorem inv_loadProgram {bytes : List Byte} {t : State} (h : Inv s) (hl : s.loadProgram bytes = .ok t) : Inv t := by
  unfold State.loadProgram at hl
  split at hl
  · cases hl
  · cases hl
    exact inv_setMem h (Memory.wf_writeBytes _ _ _ h.memory)

/-- A tick leaves the next state of the step, or the state as it was. -/
theorem inv_tick (h : Inv s) : Inv (tick s).2 := by
  cases hf : s.fault with
  | some k => rwa [tick_faulted hf]
  | none =>
    obtain ⟨t, ht⟩ := step_next hf
    rw [tick_eq ht]
    exact stepKeepsTheInvariant s t h ht

end HostActions

/-- Settles O56: the tick is a step, the reads and the keys touch nothing the invariant speaks of, and the loads and
reset() store by writes that keep memory's form. -/
theorem hostActionsKeepTheInvariant : Obligations.HostActionsKeepTheInvariant := by
  intro p s a h
  cases a with
  | tick => exact inv_tick h
  | setKeys ks => exact inv_setKeys ks h
  | setKey k down => exact inv_setKeys (s.keys.set k.toNat down k.isLt) h
  | readDisplay => exact h
  | readSound => exact h
  | reset => exact inv_resetOp p s
  | loadProgram bytes =>
    rw [State.act]
    split
    case h_1 t ht => exact inv_loadProgram h ht
    case h_2 => exact h
  | loadFont font => exact inv_loadFont font h

end Sys2Proof.Machine
end

section
/-! The host's loads and reset() (spec/70_reset_and_hazards.md): each reads back as its bytes where it stores, and as
the memory before it, which reset() has emptied, everywhere else. -/

namespace Sys2Proof.Machine

/-! ## load_font (R273) -/

/-- Where load_font stores, memory reads as the font. -/
theorem readMem_loadFont_font (font : Vector Byte 80) (s : State) {a : Nat} (h : a < 0x50) :
    (s.loadFont font).readMem a = font[a] := by
  have hlen : font.toList.length = 80 := Vector.length_toList
  have ha : a < font.toList.length := by omega
  rw [State.readMem, State.loadFont_mem, Memory.read_writeBytes _ _ _ _ (by rw [hlen]; decide), if_pos (by omega),
    Nat.sub_zero, List.getD_eq_getElem _ _ ha, Vector.getElem_toList]

/-- Behind the font, load_font touches nothing. -/
theorem readMem_loadFont_rest (font : Vector Byte 80) (s : State) {a : Nat} (h : 0x50 ≤ a) :
    (s.loadFont font).readMem a = s.readMem a := by
  have hlen : font.toList.length = 80 := Vector.length_toList
  rw [State.readMem, State.loadFont_mem, Memory.read_writeBytes_outside _ _ _ _ (.inr (by omega)), State.readMem]

/-- Settles O54: the store of the font reads back, and only memory is written. -/
theorem loadFontWritesTheFontArea : Obligations.LoadFontWritesTheFontArea := by
  intro font s
  exact ⟨fun _ h => readMem_loadFont_font font s h, fun _ h => readMem_loadFont_rest font s h, rfl⟩

/-! ## reset() (R270) -/

/-- The reset contents are 0 past the default font. -/
theorem unlisted_of_le {a : Nat} (h : 0x50 ≤ a) : unlisted a = 0 :=
  List.getD_eq_default _ _ (defaultFontBytes_length.trans_le h)

/-- reset() loads the font over memory that lists nothing. -/
theorem readMem_resetOp_rest (p : Config.Params) (s : State) {a : Nat} (h : 0x50 ≤ a) :
    (s.resetOp p).readMem a = 0 := by
  rw [State.resetOp, readMem_loadFont_rest _ _ h]
  exact unlisted_of_le h

/-- Settles O52: the fields are set as the table says, and memory is the font over the empty list. -/
theorem resetLeavesTheTable : Obligations.ResetLeavesTheTable := by
  intro p s
  have hregs : ∀ r, (s.resetOp p).getV r = 0 := fun r => Vector.getElem_replicate r.isLt
  have hstack : ∀ (j : Nat) (h : j < 20), (s.resetOp p).stack[j] = 0 := fun j h => Vector.getElem_replicate h
  have hfont : ∀ (a : Nat) (h : a < 0x50), (s.resetOp p).readMem a = p.font[a] :=
    fun _ h => readMem_loadFont_font p.font _ h
  exact ⟨hregs, rfl, rfl, rfl, hstack, rfl, rfl, rfl, hfont, fun _ h _ => readMem_resetOp_rest p s h, rfl, rfl, rfl⟩

/-! ## load_program (R271, R272) -/

/-- What load_program stores: the program and zeros up to the end of memory. -/
def programImage (bytes : List Byte) : List Byte :=
  bytes ++ List.replicate (Config.maxProgram - bytes.length) 0

theorem programImage_length {bytes : List Byte} (h : bytes.length ≤ 0xE00) : (programImage bytes).length = 0xE00 := by
  rw [programImage, List.length_append, List.length_replicate, Config.maxProgram]
  omega

/-- The padding reads as 0, which is also what a program reads as past its end. -/
theorem programImage_getD (bytes : List Byte) (k : Nat) : (programImage bytes).getD k 0 = bytes.getD k 0 := by
  rcases Nat.lt_or_ge k bytes.length with h | h
  · exact List.getD_append _ _ _ _ h
  · rw [programImage, List.getD_append_right _ _ _ _ h, List.getD_eq_getElem?_getD,
      List.getElem?_getD_replicate_default_eq, List.getD_eq_default _ _ h]

theorem loadProgram_fits {bytes : List Byte} (h : bytes.length ≤ 0xE00) (s : State) :
    s.loadProgram bytes = .ok (s.setMem (Memory.writeBytes s.mem Config.progBase (programImage bytes))) :=
  if_neg (Nat.not_lt.2 h)

theorem loadProgram_tooLarge {bytes : List Byte} (h : 0xE00 < bytes.length) (s : State) :
    s.loadProgram bytes = .error .programTooLarge :=
  if_pos h

section Fits

variable {bytes : List Byte} (h : bytes.length ≤ 0xE00) (m : Memory)

include h

/-- From the entry point to the end of memory, a read is of the program or of the zeros behind it. -/
theorem read_programImage {k : Nat} (hk : k < 0xE00) :
    Memory.read (Memory.writeBytes m Config.progBase (programImage bytes)) (Config.progBase + k) =
      bytes.getD k 0 := by
  have hlen := programImage_length h
  rw [Memory.read_writeBytes _ _ _ _ (by rw [hlen]; decide), if_pos (by omega), Nat.add_sub_cancel_left,
    programImage_getD]

theorem read_programImage_program {k : Nat} (hk : k < bytes.length) :
    Memory.read (Memory.writeBytes m Config.progBase (programImage bytes)) (Config.progBase + k) = bytes[k] := by
  rw [read_programImage h m (hk.trans_le h), List.getD_eq_getElem _ _ hk]

theorem read_programImage_padding {a : Nat} (ha : Config.progBase + bytes.length ≤ a) (htop : a ≤ 0xFFF) :
    Memory.read (Memory.writeBytes m Config.progBase (programImage bytes)) a = 0 := by
  obtain ⟨k, rfl⟩ := Nat.exists_eq_add_of_le (Nat.le_of_add_right_le ha)
  have hk : bytes.length ≤ k := Nat.le_of_add_le_add_left ha
  rw [read_programImage h m (by rw [Config.progBase] at htop; omega), List.getD_eq_default _ _ hk]

end Fits

/-- Settles O53: the stored image is the program and its zeros, nothing below 0x200 is stored to, and a program too
long is not stored. -/
theorem loadProgramFillsFromTheEntryPoint : Obligations.LoadProgramFillsFromTheEntryPoint := by
  refine fun bytes s => ⟨fun h => ⟨_, loadProgram_fits h s, ?_, ?_, ?_, rfl⟩, fun h => loadProgram_tooLarge h s⟩
  · exact fun k hk => read_programImage_program h s.mem hk
  · exact fun a ha htop => read_programImage_padding h s.mem ha htop
  · exact fun a ha => Memory.read_writeBytes_outside s.mem Config.progBase (programImage bytes) a (.inl ha)

end Sys2Proof.Machine
end
